-- ==== Sys2Proof/Word.lean ====
section
/-! DEFINITION. The widths of hash_mixer's values (spec 00_scope.md section 5, rule R3). -/

namespace Sys2Proof

/-- A `u32`: an accumulator's value or a widened code unit (`ACC_BITS`, rules R3 and R11). -/
abbrev Word := BitVec 32

/-- A `u64`: the seed, `cmd_data` or `digest` (`SEED_BITS`, `OUT_BITS`, rules R3 and R18). -/
abbrev DWord := BitVec 64

/-- A narrow code unit (`NARROW_BITS`, rule R3). -/
abbrev Byte := BitVec 8

/-- The 66-bit command word `{op[1:0], data[63:0]}` (rule R30). -/
abbrev CmdWord := BitVec 66

end Sys2Proof
end

