-- ==== Sys2Proof/Config.lean ====
section
/-! DEFINITION. What an implementation of hash_mixer fixes (rule R4), and the values the spec leaves free. -/

namespace Sys2Proof

/-- The legal values of the build parameter `WIDE_BITS` (rule R4 (a), decision D7). -/
inductive WideBits where
  | w16
  | w32
deriving DecidableEq, Repr

/-- `WIDE_BITS` as a number of bits. -/
def WideBits.bits : WideBits → Nat
  | .w16 => 16
  | .w32 => 32

/-- Building a configuration: every number but 16 and 32 is refused (93_implementation_defined.md U4). -/
def WideBits.ofNat? (n : Nat) : Option WideBits :=
  if n = 16 then some .w16 else if n = 32 then some .w32 else none

/-- What is fixed when a block is built (rule R4). It is no register: nothing writes it (rule R15). -/
structure Config where
  wideBits : WideBits
deriving DecidableEq, Repr

/-- The default of `WIDE_BITS` is 32 (rule R4 (a)). -/
def Config.default : Config := { wideBits := .w32 }

/-- The parameters `LAT_INIT`, `LAT_UPD`, `LAT_FIN` of rule R79: the clock cycles from the edge that accepts a
command to the first edge at which `cmd_ready = 1` again. No meaning and no step reads them. -/
structure Latencies where
  init : Nat
  upd : Nat
  fin : Nat
deriving DecidableEq, Repr

/-- "each at least 1 and otherwise open" (rule R79). -/
def Latencies.legal (l : Latencies) : Bool :=
  decide (1 ≤ l.init) && decide (1 ≤ l.upd) && decide (1 ≤ l.fin)

/-- What the output `digest` shows at the `n`-th clock edge if `cmd_ready = 0` there: not specified
(rule R78, U11). A FREE VALUE (log entry 5). -/
opaque Config.busyDigest : Nat → DWord

/-- What the output `done` shows at the `n`-th clock edge if `cmd_ready = 0` there: not specified
(rule R78, U11). A FREE VALUE (log entry 5). -/
opaque Config.busyDone : Nat → Bool

end Sys2Proof
end

