-- ==== Sys2Proof/Syntax.lean ====
section
/-! DEFINITION. The four commands, one constructor per row of spec/opcode_table.json (rule R31). -/

namespace Sys2Proof

/-- A command with its operand. A wide unit is kept in 32 bits; that it fits the block's `WIDE_BITS` is
checked by `Instr.wellFormed`. -/
inductive Instr where
  /-- `INIT <seed>` (rule R40). -/
  | init (seed : DWord)
  /-- `UPD8 <unit>` (rule R41). -/
  | upd8 (unit8 : Byte)
  /-- `UPDW <unit>` (rule R42). -/
  | updw (unitw : Word)
  /-- `FIN` (rule R44). -/
  | fin
deriving DecidableEq, Repr

end Sys2Proof
end

