-- ==== Sys2Proof/WellFormed.lean ====
section
/-! DEFINITION. Which commands a block built with a given `WIDE_BITS` can be sent as written (rule R36). -/

namespace Sys2Proof

/-- The `<unit>` of UPDW must be in `[0, 2^WIDE_BITS)` (rule R36); the seed and the narrow unit are in range by
their type. -/
def Instr.wellFormed (w : WideBits) : Instr → Bool
  | .init _ => true
  | .upd8 _ => true
  | .updw u => decide (u.toNat < 2 ^ w.bits)
  | .fin => true

end Sys2Proof
end

