-- ==== Sys2Proof/Decode.lean ====
section
/-! DEFINITION. The 66-bit command word: fields, decoder, encoder and the opcode table (30_encoding.md). -/

namespace Sys2Proof

/-- `cw[65:64]`, the port `cmd_op` (rule R30). -/
def opField (cw : CmdWord) : BitVec 2 := cw.extractLsb' 64 2

/-- `cw[63:0]`, the port `cmd_data` (rule R30). -/
def dataField (cw : CmdWord) : DWord := cw.extractLsb' 0 64

/-- The command word `{op, data}` of the two ports (rule R30). -/
def cmdWord (op : BitVec 2) (data : DWord) : CmdWord := (op ++ data : BitVec (2 + 64))

/-- Format B: `cmd_data[7:0]`; bits 63:8 are ignored (rules R30, R33). -/
def unit8Field (data : DWord) : Byte := data.extractLsb' 0 8

/-- Format W: `cmd_data[WIDE_BITS-1:0]`; the bits above are ignored (rules R30, R33). -/
def unitwField (w : WideBits) (data : DWord) : Word :=
  match w with
  | .w16 => (data.extractLsb' 0 16).setWidth 32
  | .w32 => data.extractLsb' 0 32

/-- The decoder of rule R31: all four `op` values are commands, so it is total on all `2^66` words and rejects
nothing (rule R34). -/
def decode (w : WideBits) (cw : CmdWord) : Instr :=
  if opField cw = 0#2 then .init (dataField cw)
  else if opField cw = 1#2 then .upd8 (unit8Field (dataField cw))
  else if opField cw = 2#2 then .updw (unitwField w (dataField cw))
  else .fin

/-- The command word an assembler writes: operand right-aligned, zeros in the ignored bits (rules R31, R36). -/
def encode : Instr → CmdWord
  | .init seed => cmdWord 0#2 seed
  | .upd8 u => cmdWord 1#2 (u.setWidth 64)
  | .updw u => cmdWord 2#2 (u.setWidth 64)
  | .fin => cmdWord 3#2 0#64

/-- The bits of `cmd_data` that are operand bits of the command with the given `op`; the others are ignored
(the field table under rule R30). -/
def operandMask (w : WideBits) (op : BitVec 2) : DWord :=
  if op = 0#2 then 0xFFFFFFFFFFFFFFFF#64
  else if op = 1#2 then 0xFF#64
  else if op = 2#2 then
    match w with
    | .w16 => 0xFFFF#64
    | .w32 => 0xFFFFFFFF#64
  else 0#64

/-- The mnemonic of a command (rule R31). -/
def Instr.mnemonic : Instr → String
  | .init _ => "INIT"
  | .upd8 _ => "UPD8"
  | .updw _ => "UPDW"
  | .fin => "FIN"

/-- A row of the opcode map as match and mask on the command word (rule R31). -/
structure OpcodeRow where
  mnemonic : String
  pattern : CmdWord
  mask : CmdWord
deriving DecidableEq, Repr

/-- The opcode map (rule R31). -/
def opcodeTable : List OpcodeRow :=
  [ ⟨"INIT", 0x00000000000000000#66, 0x30000000000000000#66⟩,
    ⟨"UPD8", 0x10000000000000000#66, 0x30000000000000000#66⟩,
    ⟨"UPDW", 0x20000000000000000#66, 0x30000000000000000#66⟩,
    ⟨"FIN", 0x30000000000000000#66, 0x30000000000000000#66⟩ ]

/-- A command word belongs to a row when it agrees with the row's pattern on the row's mask. -/
def OpcodeRow.covers (r : OpcodeRow) (cw : CmdWord) : Bool := decide (cw &&& r.mask = r.pattern)

/-- The command word made of the low `nbits` bits of `w`; the ports have bits 65:0 and no others
(log entry 7). -/
def tableWord (nbits w : Nat) : CmdWord := BitVec.ofNat 66 (w % 2 ^ nbits)

/-- What the decoder of a block with the default `WIDE_BITS = 32` reads from a table word (log entry 7). -/
def decodeTableWord (nbits w : Nat) : Option Instr :=
  some (decode Config.default.wideBits (tableWord nbits w))

end Sys2Proof
end

