-- ==== Sys2Proof/Machine/Constants.lean ====
section
/-! DEFINITION. The fixed parameters of the block, with the source's own literals (rule R3). -/

namespace Sys2Proof.Machine

/-- `INIT1`, the start constant of `h1`. -/
def init1 : Nat := 0xDEADBEEF

/-- `INIT2`, the start constant of `h2`. -/
def init2 : Nat := 0x41C6CE57

/-- `MUL1`, the per-element multiplier of `h1`. -/
def mul1 : Nat := 2654435761

/-- `MUL2`, the per-element multiplier of `h2`. -/
def mul2 : Nat := 1597334677

/-- `FMUL_A`, the finalisation multiplier of the `>> 16` term. -/
def fmulA : Nat := 2246822507

/-- `FMUL_B`, the finalisation multiplier of the `>> 13` term. -/
def fmulB : Nat := 3266489909

/-- `SHIFT_A`, the right shift paired with `FMUL_A`. -/
def shiftA : Nat := 16

/-- `SHIFT_B`, the right shift paired with `FMUL_B`. -/
def shiftB : Nat := 13

/-- `HI_MASK`, the mask on `h2'` in the result. -/
def hiMask : Nat := 2097151

/-- `HI_SCALE`, the scale of the masked `h2'`. -/
def hiScale : Nat := 4294967296

end Sys2Proof.Machine
end

