-- ==== Sys2Proof/Machine/State.lean ====
section
/-! DEFINITION. The state of hash_mixer (10_state.md), what can end a step, and the state after reset. -/

namespace Sys2Proof.Machine

/-- The block's inputs at one rising edge of `clk` (the ports of rule R18), with the one free choice the block has
at an edge: whether it has finished its work, so that `cmd_ready` is 1 at the next edge (rule R78, log entry 3). -/
structure Edge where
  /-- The port `rst`. -/
  rst : Bool
  /-- The port `cmd_valid`. -/
  cmdValid : Bool
  /-- The port `cmd_op`. -/
  cmdOp : BitVec 2
  /-- The port `cmd_data`. -/
  cmdData : DWord
  /-- Free: no work is left after this edge. -/
  finishes : Bool
deriving DecidableEq, Repr

/-- An edge at which the host offers nothing. The block finishes what it works on: `cmd_ready` "does not stay 0
for ever" (rule R78). -/
def Edge.idle : Edge := { rst := false, cmdValid := false, cmdOp := 0#2, cmdData := 0#64, finishes := true }

/-- The state. `h1`, `h2`, `done` are the whole architectural state of rule R10; `ready` is the level of the output
`cmd_ready` (rules R18, R78). The build parameter `cfg` is carried and never written (log entry 1); `edges` and
`cycle` are the model's own (log entries 2 and 5). -/
structure State where
  /-- The accumulator `H1` (rule R11). -/
  h1 : Word
  /-- The accumulator `H2` (rule R11). -/
  h2 : Word
  /-- The flag `DONE` (rule R12). -/
  done : Bool
  /-- The level of `cmd_ready` (rule R78). -/
  ready : Bool
  /-- The build parameters (rule R4). -/
  cfg : Config
  /-- What the host drives at the coming clock edges; after the last one it offers nothing. -/
  edges : List Edge
  /-- The clock edges seen so far; it only indexes free values. -/
  cycle : Nat
deriving DecidableEq, Repr

/-- Why the machine would stop: never. "The block raises no synchronous exception" (rule R60), so there is no
constructor. Safe: nothing is hidden, the block has no fault. -/
inductive Fault where
deriving DecidableEq, Repr

/-- Why an instruction would have no meaning. -/
inductive Refusal where
  /-- An instruction of the opcode table that has no meaning yet. No arm of `exec` raises it: every command is
  modelled (rule R34). Safe. -/
  | notModelled (mnemonic : String)
deriving DecidableEq, Repr

/-- The machine right after reset (rules R17, R70): `H1 = 0xDEADBEEF`, `H2 = 0x41C6CE57`, `DONE = 0`. `WIDE_BITS`
has its default (rule R4). That `cmd_ready` is already 1 is a DESIGN CHOICE (log entry 4); so are the empty schedule
and the count 0 (log entries 2 and 5). -/
def State.reset : State :=
  { h1 := BitVec.ofNat 32 init1
    h2 := BitVec.ofNat 32 init2
    done := false
    ready := true
    cfg := Config.default
    edges := []
    cycle := 0 }

end Sys2Proof.Machine
end

