-- ==== Sys2Proof/Machine/Flags.lean ====
section
/-! DEFINITION. The only flag, `DONE` (rule R12). -/

namespace Sys2Proof.Machine

/-- `DONE <- 0`: INIT, UPD8, UPDW and reset (rule R12). -/
def clearDone (s : State) : State := { s with done := false }

/-- `DONE <- 1`: FIN (rule R12). -/
def setDone (s : State) : State := { s with done := true }

end Sys2Proof.Machine
end

