-- ==== Sys2Proof/Machine/Operands.lean ====
section
/-! DEFINITION. How the operand of a command enters the arithmetic (rules R22, R32): zero extension, nothing else. -/

namespace Sys2Proof.Machine

/-- `ch = zext_32(cmd_data[7:0])` (rules R32, R41). -/
def narrowUnit (u : Byte) : Word := u.setWidth 32

/-- `ch = zext_32(cmd_data[WIDE_BITS-1:0])` (rules R32, R42). The block reads `WIDE_BITS` bits whatever is sent, so
a unit that does not fit is truncated (rules R33, R36; log entry 8). -/
def wideUnit (w : WideBits) (u : Word) : Word :=
  match w with
  | .w16 => (u.extractLsb' 0 16).setWidth 32
  | .w32 => u

end Sys2Proof.Machine
end

