-- ==== Sys2Proof/Machine/Ops.lean ====
section
/-! DEFINITION. The arithmetic of the block and the operations its commands share (rules R5, R6, R40, R43, R45,
R46). Products and XORs are exact in `Nat`; every write of an accumulator goes through `low32` (rule R67). There is
no exception to take and none to return from (rules R60, R63). A constant factor is written first and a variable first in
an XOR or AND, so that Lean's kernel never counts up a constant in unary. -/

namespace Sys2Proof.Machine

/-- `low32(x) = x mod 2^32 = x[31:0]`, for an unsigned integer of any width (rule R5; its laws: R7 (a) to (c)). -/
def low32 (x : Nat) : Word := BitVec.ofNat 32 x

/-- `low32(zext_64(C) ^ seed)`: a start constant blended with the seed (rule R40). -/
def blendSeed (c : Nat) (seed : DWord) : Word := low32 (seed.toNat ^^^ c)

/-- Both accumulators after INIT (rule R40). -/
def seedPair (seed : DWord) : Word × Word := (blendSeed init1 seed, blendSeed init2 seed)

/-- `low32((h ^ ch) * m)`: one accumulator's share of the mix step (rule R43). -/
def mixOne (h ch : Word) (m : Nat) : Word := low32 (m * (h ^^^ ch).toNat)

/-- The mix step (rule R43). -/
def mix (h1 h2 ch : Word) : Word × Word := (mixOne h1 ch mul1, mixOne h2 ch mul2)

/-- `v ^ (v >> k)`, a logical shift (rules R45, R7 (d)). -/
def xorShift (v : Word) (k : Nat) : Word := v ^^^ (v >>> k)

/-- One line of the finalisation:
`low32((x ^ (x >> 16)) * FMUL_A ^ (y ^ (y >> 13)) * FMUL_B)` (rule R45). -/
def finLine (x y : Word) : Word :=
  low32 ((fmulA * (xorShift x shiftA).toNat) ^^^ (fmulB * (xorShift y shiftB).toNat))

/-- The finalisation: the second line reads the first line's result `a`, the sequential reading of 90_conflicts.md
C1, and the old `H2` (rule R45). -/
def avalanche (h1 h2 : Word) : Word × Word :=
  let a := finLine h1 h2
  (a, finLine h2 a)

/-- `4294967296 * (2097151 & h2) + h1 = {11'b0, h2[20:0], h1[31:0]}` (rule R46, 90_conflicts.md C5). -/
def assemble (h1 h2 : Word) : DWord := BitVec.ofNat 64 (hiScale * (h2.toNat &&& hiMask) + h1.toNat)

/-- Both accumulators are written together (rules R11, R25). -/
def writeAccs (p : Word × Word) (s : State) : State := { s with h1 := p.1, h2 := p.2 }

/-- One code unit absorbed: the effect UPD8 and UPDW share (rules R41, R42). -/
def absorb (ch : Word) (s : State) : State := clearDone (writeAccs (mix s.h1 s.h2 ch) s)

/-- The reset values written, whatever the state (rules R17, R70). -/
def resetBlock (s : State) : State := clearDone (writeAccs (low32 init1, low32 init2) s)

/-- The wiring `digest = assemble(H1, H2)` (rule R13). -/
def digest (s : State) : DWord := assemble s.h1 s.h2

/-- The output port `digest`: the wiring, but not specified while `cmd_ready = 0` (rules R18, R78). -/
def digestPort (s : State) : DWord := if s.ready then digest s else Config.busyDigest s.cycle

/-- The output port `done`: the flag, but not specified while `cmd_ready = 0` (rules R18, R78). -/
def donePort (s : State) : Bool := if s.ready then s.done else Config.busyDone s.cycle

end Sys2Proof.Machine
end

