-- ==== Sys2Proof/Machine/Finalize.lean ====
section
/-! DEFINITION. The finalisation family: FIN (42_finalize.md). -/

namespace Sys2Proof.Machine

/-- `FIN` (rule R44). -/
def execFin (s : State) : Host.Outcome State Fault Refusal :=
  .next (setDone (writeAccs (avalanche s.h1 s.h2) s))

end Sys2Proof.Machine
end

