-- ==== Sys2Proof/Machine/Init.lean ====
section
/-! DEFINITION. The initialisation family: INIT (40_init.md). -/

namespace Sys2Proof.Machine

/-- `INIT seed` (rule R40). -/
def execInit (seed : DWord) (s : State) : Host.Outcome State Fault Refusal :=
  .next (clearDone (writeAccs (seedPair seed) s))

end Sys2Proof.Machine
end

