-- ==== Sys2Proof/Machine/Update.lean ====
section
/-! DEFINITION. The per-element update family: UPD8, UPDW (41_update.md). -/

namespace Sys2Proof.Machine

/-- `UPD8 unit` (rule R41). -/
def execUpd8 (u : Byte) (s : State) : Host.Outcome State Fault Refusal :=
  .next (absorb (narrowUnit u) s)

/-- `UPDW unit` (rule R42). -/
def execUpdw (u : Word) (s : State) : Host.Outcome State Fault Refusal :=
  .next (absorb (wideUnit s.cfg.wideBits u) s)

end Sys2Proof.Machine
end

