-- ==== Sys2Proof/Machine/Dispatch.lean ====
section
/-! DEFINITION. One arm per command (rule R31). -/

namespace Sys2Proof.Machine

/-- `exec(s, c)`, the state after command `c` from state `s` (rule R8). -/
def exec (i : Instr) (s : State) : Host.Outcome State Fault Refusal :=
  match i with
  | .init seed => Sys2Proof.Machine.execInit seed s
  | .upd8 u => Sys2Proof.Machine.execUpd8 u s
  | .updw u => Sys2Proof.Machine.execUpdw u s
  | .fin => Sys2Proof.Machine.execFin s

end Sys2Proof.Machine
end

