-- ==== Sys2Proof/Machine/Port.lean ====
section
/-! DEFINITION. The command port and reset at one rising clock edge (rules R18, R62, R70, R78). -/

namespace Sys2Proof.Machine

/-- What is at the ports at the coming edge; after the schedule's end the host offers nothing (log entry 2). -/
def nextEdge (s : State) : Edge := s.edges.headD Edge.idle

/-- The coming edge is used up. -/
def takeEdge (s : State) : State := { s with edges := s.edges.tail, cycle := s.cycle + 1 }

/-- The level of `cmd_ready` after an edge. -/
def setReady (r : Bool) (s : State) : State := { s with ready := r }

/-- The command word of the two ports `cmd_op` and `cmd_data` (rule R30). -/
def Edge.word (e : Edge) : CmdWord := cmdWord e.cmdOp e.cmdData

/-- "A command is accepted at a rising edge of `clk` at which `rst = 0`, `cmd_valid = 1` and `cmd_ready = 1`"
(rule R18). -/
def accepts (ready : Bool) (e : Edge) : Bool := !e.rst && e.cmdValid && ready

/-- The level of `cmd_ready` after an edge (rule R78): it may be 0 after a command was accepted, after reset, and
while it was 0 already, until the block has finished; it does not fall by itself. -/
def readyAfter (ready : Bool) (e : Edge) : Bool :=
  if e.rst || accepts ready e then e.finishes else ready || e.finishes

/-- What an outcome's next state is turned into. -/
def mapNext (f : State → State) : Host.Outcome State Fault Refusal → Host.Outcome State Fault Refusal
  | .next s => .next (f s)
  | .fault r => .fault r
  | .refused r => .refused r

/-- The effect of one edge on the block, from a state whose coming edge is used up: reset wins over an offered
command, which is then dropped (rules R62, R70); an accepted command is executed (rule R18); else nothing changes. -/
def edgeEffect (e : Edge) (s : State) : Host.Outcome State Fault Refusal :=
  if e.rst then .next (resetBlock s)
  else if accepts s.ready e then exec (decode s.cfg.wideBits e.word) s
  else .next s

/-- One rising clock edge. -/
def clockEdge (s : State) : Host.Outcome State Fault Refusal :=
  mapNext (setReady (readyAfter s.ready (nextEdge s))) (edgeEffect (nextEdge s) (takeEdge s))

/-- An edge at which the host offers the command word `cw` and the block needs one cycle for it. -/
def offer (cw : CmdWord) : Edge :=
  { rst := false, cmdValid := true, cmdOp := opField cw, cmdData := dataField cw, finishes := true }

/-- The command word offered at the coming edge, in place of what the schedule has there, to a ready block. -/
def offerNext (cw : CmdWord) (s : State) : State := { s with ready := true, edges := offer cw :: s.edges.tail }

end Sys2Proof.Machine
end

