-- ==== Sys2Proof/Machine/Step.lean ====
section
/-! DEFINITION. One step of the machine is one rising clock edge. -/

namespace Sys2Proof.Machine

/-- One rising edge of `clk` with the inputs the schedule gives for it (rules R18, R62, R70, R78). -/
def step (s : State) : Host.Outcome State Fault Refusal := clockEdge s

/-- `s` with the command word offered at the coming edge and accepted there (log entry 6). -/
def State.withFetchWord (s : State) (nbits w : Nat) : State := offerNext (tableWord nbits w) s

end Sys2Proof.Machine
end

