-- ==== Sys2Proof/Machine/Hash.lean ====
section
/-! DEFINITION. The whole hash (43_hash_function.md): the formula, the two entry points, the transactions and the
expansions of the two pseudo-instructions. -/

namespace Sys2Proof.Machine

/-- `(h1_n, h2_n)` of rule R48: a left fold of `mix` over the units, from the seeded constants. -/
def absorbAll (k : DWord) (c : List Word) : Word × Word :=
  c.foldl (fun p ch => mix p.1 p.2 ch) (seedPair k)

/-- `(a, b)` of rule R48: the finalised pair. -/
def finalPair (k : DWord) (c : List Word) : Word × Word :=
  avalanche (absorbAll k c).1 (absorbAll k c).2

/-- `cyrb53(c, k)`, the hash as one formula (rule R48). -/
def cyrb53 (c : List Word) (k : DWord) : DWord := assemble (finalPair k c).1 (finalPair k c).2

/-- `hash8(s, k)` (rule R49). -/
def hash8 (s : List Byte) (k : DWord) : DWord := cyrb53 (s.map narrowUnit) k

/-- `hashWide(s, k)` for a sequence of `WIDE_BITS`-bit units (rule R49). -/
def hashWide (w : WideBits) (s : List (BitVec w.bits)) (k : DWord) : DWord :=
  cyrb53 (s.map (fun u => u.setWidth 32)) k

/-- The update commands (rule R47). -/
def isUpdate : Instr → Bool
  | .init _ => false
  | .upd8 _ => true
  | .updw _ => true
  | .fin => false

/-- The unit value an update command extracts (rule R32). -/
def unitOf (w : WideBits) : Instr → Option Word
  | .init _ => none
  | .upd8 u => some (narrowUnit u)
  | .updw u => some (wideUnit w u)
  | .fin => none

/-- The unit values of a command sequence, in order. -/
def unitsOf (w : WideBits) (us : List Instr) : List Word := us.filterMap (unitOf w)

/-- `INIT k ; U_0 ; ... ; U_(n-1) ; FIN` (rule R47). -/
def transaction (k : DWord) (us : List Instr) : List Instr := .init k :: (us ++ [.fin])

/-- The expansion of `HASH8 s, k` (rule R37). -/
def hash8Commands (s : List Byte) (k : DWord) : List Instr := transaction k (s.map .upd8)

/-- The expansion of `HASHWIDE s, k` (rule R37). -/
def hashWideCommands (w : WideBits) (s : List (BitVec w.bits)) (k : DWord) : List Instr :=
  transaction k (s.map (fun u => .updw (u.setWidth 32)))

end Sys2Proof.Machine
end

