-- ==== Sys2Proof/Machine/Assembler.lean ====
section
/-! DEFINITION. The textual form of commands and of the two pseudo-instructions (rules R36, R37). A line is a list of
characters. What those rules leave open is chosen in log entry 12. -/

namespace Sys2Proof.Machine

/-- The single quote of a character literal. -/
def quoteChar : Char := Char.ofNat 39

/-- The double quote of a string. -/
def stringChar : Char := Char.ofNat 34

/-- Space and tab. -/
def isBlank (c : Char) : Bool := c.toNat == 32 || c.toNat == 9

/-- The characters 0x20 to 0x7E (rules R36, R37). -/
def isPrintable (c : Char) : Bool := decide (32 ≤ c.toNat) && decide (c.toNat ≤ 126)

def skipBlanks : List Char → List Char
  | [] => []
  | c :: cs => if isBlank c then skipBlanks cs else c :: cs

/-- Nothing but blanks and a comment is left; "a comment runs from `;` to the end of the line" (rule R36). -/
def atEnd (t : List Char) : Bool :=
  match skipBlanks t with
  | [] => true
  | c :: _ => c == ';'

/-- The value of a decimal digit. -/
def decDigit (c : Char) : Option Nat :=
  if 48 ≤ c.toNat ∧ c.toNat ≤ 57 then some (c.toNat - 48) else none

/-- The value of a hexadecimal digit, upper or lower case. -/
def hexDigit (c : Char) : Option Nat :=
  if 48 ≤ c.toNat ∧ c.toNat ≤ 57 then some (c.toNat - 48)
  else if 65 ≤ c.toNat ∧ c.toNat ≤ 70 then some (c.toNat - 55)
  else if 97 ≤ c.toNat ∧ c.toNat ≤ 102 then some (c.toNat - 87)
  else none

/-- The number written by the leading digits, after `acc`, and the text behind them. -/
def readDigits (digit : Char → Option Nat) (base : Nat) : Nat → List Char → Nat × List Char
  | acc, [] => (acc, [])
  | acc, c :: cs =>
    match digit c with
    | some d => readDigits digit base (acc * base + d) cs
    | none => (acc, c :: cs)

/-- A number with at least one digit. -/
def readNat (digit : Char → Option Nat) (base : Nat) : List Char → Option (Nat × List Char)
  | [] => none
  | c :: cs =>
    match digit c with
    | some d => some (readDigits digit base d cs)
    | none => none

/-- The rest of a character literal, behind its opening quote. -/
def readCharLiteral : List Char → Option (Nat × List Char)
  | c :: q :: cs => if isPrintable c && q == quoteChar then some (c.toNat, cs) else none
  | _ => none

/-- A number is decimal, hexadecimal with the prefix `0x`, or a character literal (rule R36). -/
def readNumber (t : List Char) : Option (Nat × List Char) :=
  match t with
  | [] => none
  | c :: cs =>
    if c == quoteChar then readCharLiteral cs
    else if c == '0' && cs.head? == some 'x' then readNat hexDigit 16 cs.tail
    else readNat decDigit 10 t

/-- The mnemonic's characters: capital letters and digits. -/
def isMnemonicChar (c : Char) : Bool :=
  (decide (65 ≤ c.toNat) && decide (c.toNat ≤ 90)) || (decide (48 ≤ c.toNat) && decide (c.toNat ≤ 57))

/-- The one operand of a command, with nothing behind it; a number outside `[0, 2^bits)` is refused rather than
truncated (rule R36). -/
def readOperand (bits : Nat) (t : List Char) : Option Nat :=
  match readNumber (skipBlanks t) with
  | some (v, r) => if v < 2 ^ bits ∧ atEnd r = true then some v else none
  | none => none

/-- The numbers of a list `n, n, ... ]`, behind its opening bracket and not empty; `fuel` bounds their count. -/
def readList : Nat → List Char → Option (List Nat × List Char)
  | 0, _ => none
  | fuel + 1, t =>
    match readNumber (skipBlanks t) with
    | none => none
    | some (v, r) =>
      match skipBlanks r with
      | [] => none
      | c :: r' =>
        if c == ']' then some ([v], r')
        else if c == ',' then (readList fuel r').map (fun p => (v :: p.1, p.2))
        else none

/-- The ASCII numbers of the characters of a string, behind its opening quote (rule R37). -/
def readString : List Char → Option (List Nat × List Char)
  | [] => none
  | c :: cs =>
    if c == stringChar then some ([], cs)
    else if isPrintable c then (readString cs).map (fun p => (c.toNat :: p.1, p.2))
    else none

/-- The sequence operand of HASH8 and HASHWIDE: a list of numbers in brackets or a string (rule R37). -/
def readSequence (t : List Char) : Option (List Nat × List Char) :=
  match skipBlanks t with
  | [] => none
  | c :: cs =>
    if c == stringChar then readString cs
    else if c == '[' then
      match skipBlanks cs with
      | [] => none
      | d :: ds => if d == ']' then some ([], ds) else readList (cs.length) (d :: ds)
    else none

/-- The seed operand behind the sequence: `, k`, or nothing, and then it is 0 (rule R37). -/
def readSeed (t : List Char) : Option Nat :=
  if atEnd t then some 0
  else
    match skipBlanks t with
    | [] => none
    | c :: cs => if c == ',' then readOperand 64 cs else none

/-- Both operands of a pseudo-instruction, each unit in `[0, 2^bits)`. -/
def readHash (bits : Nat) (t : List Char) : Option (List Nat × Nat) :=
  match readSequence t with
  | none => none
  | some (s, r) =>
    match readSeed r with
    | none => none
    | some k => if s.all (fun v => decide (v < 2 ^ bits)) then some (s, k) else none

/-- The commands of one line: none for an empty line, one for a command, the expansion of a pseudo-instruction;
`none` where the assembler refuses the line (rules R36, R37). -/
def asmLine (w : WideBits) (t : List Char) : Option (List Instr) :=
  if atEnd t then some []
  else
    let body := skipBlanks t
    let name := body.takeWhile isMnemonicChar
    let rest := body.dropWhile isMnemonicChar
    if name = ['I', 'N', 'I', 'T'] then (readOperand 64 rest).map (fun v => [.init (BitVec.ofNat 64 v)])
    else if name = ['U', 'P', 'D', '8'] then (readOperand 8 rest).map (fun v => [.upd8 (BitVec.ofNat 8 v)])
    else if name = ['U', 'P', 'D', 'W'] then (readOperand w.bits rest).map (fun v => [.updw (BitVec.ofNat 32 v)])
    else if name = ['F', 'I', 'N'] then (if atEnd rest then some [.fin] else none)
    else if name = ['H', 'A', 'S', 'H', '8'] then
      (readHash 8 rest).map (fun p => hash8Commands (p.1.map (BitVec.ofNat 8)) (BitVec.ofNat 64 p.2))
    else if name = ['H', 'A', 'S', 'H', 'W', 'I', 'D', 'E'] then
      (readHash w.bits rest).map (fun p => hashWideCommands w (p.1.map (BitVec.ofNat w.bits)) (BitVec.ofNat 64 p.2))
    else none

/-- The command words of a listing, one command or pseudo-instruction a line (rule R36). -/
def asmProgram (w : WideBits) : List (List Char) → Option (List CmdWord)
  | [] => some []
  | t :: ts =>
    match asmLine w t, asmProgram w ts with
    | some cs, some ws => some (cs.map encode ++ ws)
    | _, _ => none

/-- The character of a hexadecimal digit, upper case. -/
def hexChar (d : Nat) : Char := if d < 10 then Char.ofNat (48 + d) else Char.ofNat (55 + d)

/-- The low `n` hexadecimal digits of a number, the highest first. -/
def hexDigits : Nat → Nat → List Char
  | 0, _ => []
  | n + 1, v => hexDigits n (v / 16) ++ [hexChar (v % 16)]

/-- A number with the prefix `0x` and `n` digits. -/
def hexText (n v : Nat) : List Char := ['0', 'x'] ++ hexDigits n v

/-- A command word "printed as 17 hexadecimal digits" (rule R36). -/
def wordText (cw : CmdWord) : List Char := hexText 17 cw.toNat

/-- The text of a command, with its operand field only (rule R36). -/
def disasm : Instr → List Char
  | .init seed => ['I', 'N', 'I', 'T', ' '] ++ hexText 16 seed.toNat
  | .upd8 u => ['U', 'P', 'D', '8', ' '] ++ hexText 2 u.toNat
  | .updw u => ['U', 'P', 'D', 'W', ' '] ++ hexText 8 u.toNat
  | .fin => ['F', 'I', 'N']

/-- The texts of a list's numbers with commas between them, and the closing bracket. -/
def joinText : List (List Char) → List Char
  | [] => [']']
  | [x] => x ++ [']']
  | x :: y :: xs => x ++ [',', ' '] ++ joinText (y :: xs)

/-- A list in brackets, of which each number is given as text: `[0x72, 0x65]` (rule R37). -/
def listText (xs : List (List Char)) : List Char := '[' :: joinText xs

/-- The three ways to write a number: decimal, hexadecimal with the prefix `0x`, a character literal (rule R36). -/
inductive Numeral where
  | dec (digits : List Char)
  | hex (digits : List Char)
  | char (c : Char)
deriving DecidableEq, Repr

/-- At least one digit and digits only; a printable character (rule R36). -/
def Numeral.legal : Numeral → Bool
  | .dec ds => !ds.isEmpty && ds.all (fun c => (decDigit c).isSome)
  | .hex ds => !ds.isEmpty && ds.all (fun c => (hexDigit c).isSome)
  | .char c => isPrintable c

/-- How a number is written (rule R36). -/
def Numeral.text : Numeral → List Char
  | .dec ds => ds
  | .hex ds => '0' :: 'x' :: ds
  | .char c => [quoteChar, c, quoteChar]

/-- The number that is meant: positional notation, or the character's number in ASCII (rule R36). -/
def Numeral.value : Numeral → Nat
  | .dec ds => ds.foldl (fun a c => a * 10 + (decDigit c).getD 0) 0
  | .hex ds => ds.foldl (fun a c => a * 16 + (hexDigit c).getD 0) 0
  | .char c => c.toNat

/-- The seed operand behind the sequence, which may be omitted (rule R37). -/
def seedText : Option Numeral → List Char
  | none => []
  | some k => [',', ' '] ++ k.text

/-- "When `k` is omitted it is 0" (rule R37). -/
def seedValue : Option Numeral → Nat
  | none => 0
  | some k => k.value

/-- The text of `HASH8 s, k` (rule R37). -/
def hash8Text (s : List Byte) (k : DWord) : List Char :=
  ['H', 'A', 'S', 'H', '8', ' '] ++ listText (s.map (fun u => hexText 2 u.toNat)) ++ [',', ' '] ++ hexText 16 k.toNat

/-- The text of `HASHWIDE s, k` (rule R37). -/
def hashWideText (w : WideBits) (s : List (BitVec w.bits)) (k : DWord) : List Char :=
  ['H', 'A', 'S', 'H', 'W', 'I', 'D', 'E', ' '] ++ listText (s.map (fun u => hexText (w.bits / 4) u.toNat)) ++ [',', ' '] ++
    hexText 16 k.toNat

/-- A string in double quotes (rule R37). -/
def quotedText (cs : List Char) : List Char := stringChar :: (cs ++ [stringChar])

/-- The disassembly of a command word (rule R36). -/
def disasmWord (w : WideBits) (cw : CmdWord) : List Char := disasm (decode w cw)

end Sys2Proof.Machine
end

