-- ==== Sys2Proof/Machine/Datapath.lean ====
section
/-! DEFINITION. The 32-bit datapath: 32x32 multipliers that keep the low 32 bits, 32-bit XORs and shifters. The laws of
rule R7 (a) to (c) make it exact (rules R7, R77 (d)); it is a second way to compute what Machine/Ops.lean computes, and no
meaning calls it. -/

namespace Sys2Proof.Machine

/-- 32-bit wrap-around multiplication by a constant: `low32(a * b)` (rule R7 (c)). -/
def mul32 (v : Word) (c : Nat) : Word := v * low32 c

/-- The mix step on the 32-bit datapath (rules R7, R43). -/
def mix32 (h1 h2 ch : Word) : Word × Word := (mul32 (h1 ^^^ ch) mul1, mul32 (h2 ^^^ ch) mul2)

/-- A finalisation line with each product masked before the XOR: `low32(a ^ b) = low32(a) ^ low32(b)` (rule R7 (b)). -/
def finLine32 (x y : Word) : Word := mul32 (xorShift x shiftA) fmulA ^^^ mul32 (xorShift y shiftB) fmulB

/-- The finalisation on the 32-bit datapath (rules R7, R45). -/
def avalanche32 (h1 h2 : Word) : Word × Word :=
  let a := finLine32 h1 h2
  (a, finLine32 h2 a)

end Sys2Proof.Machine
end

