-- ==== Sys2Proof/Machine/Events.lean ====
section
/-! DEFINITION. What a schedule of clock edges makes the block do: its resets and accepted commands in order
(rules R26, R62, R78), and the schedule of a command sequence for given latencies (rule R79). -/

namespace Sys2Proof.Machine

/-- What can change the block at an edge: reset or an accepted command (rules R18, R61, R62). -/
inductive Event where
  | reset
  | command (i : Instr)
deriving DecidableEq, Repr

/-- The event of one edge, if any. -/
def eventAt (w : WideBits) (ready : Bool) (e : Edge) : List Event :=
  if e.rst then [.reset] else if accepts ready e then [.command (decode w e.word)] else []

/-- The events of a schedule, in order, from a given level of `cmd_ready`. -/
def events (w : WideBits) : Bool → List Edge → List Event
  | _, [] => []
  | r, e :: es => eventAt w r e ++ events w (readyAfter r e) es

/-- The level of `cmd_ready` after a schedule. -/
def readyAfterAll : Bool → List Edge → Bool
  | r, [] => r
  | r, e :: es => readyAfterAll (readyAfter r e) es

/-- The coming `n` edges of a state; after the schedule's end the host offers nothing. -/
def upcoming (n : Nat) (s : State) : List Edge := (s.edges ++ List.replicate n Edge.idle).take n

/-- The effect of one event (rules R8, R70). -/
def runEvent : Event → State → Host.Outcome State Fault Refusal
  | .reset, s => .next (resetBlock s)
  | .command i, s => exec i s

/-- `exec(... exec(exec(s, c1), c2) ..., ck)`, with resets among the commands (rule R26). -/
def runEvents : List Event → State → Host.Outcome State Fault Refusal
  | [], s => .next s
  | v :: vs, s =>
    match runEvent v s with
    | .next t => runEvents vs t
    | .fault r => .fault r
    | .refused r => .refused r

/-- The commands executed one after another (rule R26). -/
def runCommands (cs : List Instr) (s : State) : Host.Outcome State Fault Refusal :=
  runEvents (cs.map .command) s

/-- The number of cycles of a command (rule R79). -/
def latencyOf (l : Latencies) : Instr → Nat
  | .init _ => l.init
  | .upd8 _ => l.upd
  | .updw _ => l.upd
  | .fin => l.fin

/-- `n` edges at which the block works, the last of them its last; the host drives its command ports as in `noise`. -/
def workEdges (noise : Edge) : Nat → List Edge
  | 0 => []
  | n + 1 => { noise with rst := false, finishes := decide (n = 0) } :: workEdges noise n

/-- The edges of one command that takes `lat` cycles: the accepting edge, then the edges at which `cmd_ready = 0`. -/
def commandEdges (noise : Edge) (lat : Nat) (i : Instr) : List Edge :=
  { offer (encode i) with finishes := decide (lat ≤ 1) } :: workEdges noise (lat - 1)

/-- `n` edges at which the host offers nothing; `cmd_op` and `cmd_data` are as in `noise`. -/
def pauseEdges (noise : Edge) (n : Nat) : List Edge :=
  List.replicate n { noise with rst := false, cmdValid := false }

/-- The edges of a command sequence, each command with the number of edges before it at which the block is ready and the
host offers nothing (rule R79). -/
def commandSchedule (l : Latencies) (noise : Edge) (ps : List (Nat × Instr)) : List Edge :=
  ps.flatMap (fun p => pauseEdges noise p.1 ++ commandEdges noise (latencyOf l p.2) p.2)

end Sys2Proof.Machine
end

