-- ==== Sys2Proof/Safety.lean ====
section
/-! DEFINITION. What the host must respect (70_reset_and_hazards.md section 3), in the terms statements use. The
block checks none of it and never faults. -/

namespace Sys2Proof.Machine

/-- `digest` may be read as a result: the command is complete and it was a FIN (rule R72). -/
def resultOnShow (s : State) : Bool := s.ready && s.done

/-- Updates, then FIN, and nothing else. -/
def updatesThenFin : List Instr → Bool
  | [] => false
  | [i] => decide (i = .fin)
  | i :: j :: is => isUpdate i && updatesThenFin (j :: is)

/-- The command sequences the source's function gives a meaning to (rules R47, R73). -/
def isTransaction : List Instr → Bool
  | .init _ :: cs => updatesThenFin cs
  | _ => false

/-- Keeping to the transaction form (rule R73): after a FIN only INIT or reset. `fresh` says that no FIN stands
since the last INIT or reset. -/
def keepsForm : Bool → List Event → Bool
  | _, [] => true
  | _, .reset :: vs => keepsForm true vs
  | fresh, .command i :: vs =>
    match i with
    | .init _ => keepsForm true vs
    | .upd8 _ => fresh && keepsForm true vs
    | .updw _ => fresh && keepsForm true vs
    | .fin => fresh && keepsForm false vs

/-- The accumulators hold what a seed and a sequence of units give: the running pair of rule R48, or its finalised
pair once `DONE = 1`. -/
def holdsHash (s : State) : Prop :=
  ∃ (k : DWord) (c : List Word), (s.h1, s.h2) = if s.done then finalPair k c else absorbAll k c

/-- The invariant of a run in which the host keeps to the transaction form. -/
def SafeRun (s : State) : Prop :=
  holdsHash s ∧ keepsForm (!s.done) (events s.cfg.wideBits s.ready s.edges) = true

end Sys2Proof.Machine
end

