-- ==== Sys2Proof/Certificates/Slice0/Obligations.lean ====
section
/-! DEFINITION. The statements about hash_mixer, from the numbered rules of spec/. In the formulas a constant factor
stands first and a variable stands first in an XOR, as in Machine/Ops.lean. -/

open Sys2Proof Sys2Proof.Machine

/-! ## Reset and the command port -/

/-- R17 and R9: the reset state is what `INIT 0` leaves, and a first transaction may start without INIT. -/
def Obligations.ResetStateIsInitZero : Prop :=
  (State.reset.h1 = 0xDEADBEEF#32 ∧ State.reset.h2 = 0x41C6CE57#32 ∧ State.reset.done = false ∧
    digest State.reset = 0x0006CE57DEADBEEF#64) ∧
  (∀ s : State, exec (.init 0#64) s =
    .next { s with h1 := State.reset.h1, h2 := State.reset.h2, done := State.reset.done }) ∧
  ∀ (s : State) (us : List Instr),
    s.h1 = State.reset.h1 → s.h2 = State.reset.h2 → s.done = State.reset.done → us.all isUpdate = true →
    ∃ t : State, runCommands (us ++ [.fin]) s = .next t ∧ t.done = true ∧
      digest t = cyrb53 (unitsOf s.cfg.wideBits us) 0#64

/-- Reset (R62, R70): at an edge with `rst = 1` the state becomes the reset state, whatever the state is and whatever is
offered; `INIT 0` has the same effect. How long `cmd_ready` stays 0 afterwards is the edge's free choice, and `edges` and
`cycle` are the model's own fields: what the equation says of these three is the model's choice (log entries 2, 3 and
5). -/
def Obligations.ResetWinsOverCommand : Prop :=
  (∀ s : State, (nextEdge s).rst = true →
    step s = .next { s with
      h1 := 0xDEADBEEF#32, h2 := 0x41C6CE57#32, done := false,
      ready := (nextEdge s).finishes, edges := s.edges.tail, cycle := s.cycle + 1 }) ∧
  ∀ s : State, exec (.init 0#64) s = .next { s with h1 := 0xDEADBEEF#32, h2 := 0x41C6CE57#32, done := false }

/-- A step runs the decoded command: what the ports carry at an accepting edge is executed, and around it the
schedule moves on by one edge and `cmd_ready` becomes the edge's free choice. What both clauses say of `edges`, `ready`
and `cycle` is the model's choice (log entries 2, 3 and 5), and so is the second clause's way to place a command (log
entry 6). That `h1`, `h2` and `done` have their new values right after the accepting edge, also while the block works
(`finishes = false`), is the model's deduction (log entry 11). -/
def Obligations.StepRunsDecodedCommand : Prop :=
  (∀ (s t : State) (i : Instr), i.wellFormed s.cfg.wideBits = true →
    (nextEdge s).rst = false → (nextEdge s).cmdValid = true → s.ready = true →
    cmdWord (nextEdge s).cmdOp (nextEdge s).cmdData = encode i → exec i s = .next t →
    step s = .next { t with ready := (nextEdge s).finishes, edges := s.edges.tail, cycle := s.cycle + 1 }) ∧
  ∀ (s t : State) (i : Instr), i.wellFormed s.cfg.wideBits = true → exec i s = .next t →
    step (s.withFetchWord 66 (encode i).toNat) =
      .next { t with ready := true, edges := s.edges.tail, cycle := s.cycle + 1 }

/-- The command port (R18): when a command is accepted, what happens at every other edge without reset, and what the
outputs depend on. What the first two clauses say of `edges`, `ready` and `cycle` is the model's choice (log entries 2, 3
and 5); that `h1`, `h2` and `done` have their new values right after the accepting edge, also while the block works, is
the model's deduction (log entry 11). -/
def Obligations.PortAcceptance : Prop :=
  (∀ s t : State, (nextEdge s).rst = false → (nextEdge s).cmdValid = true → s.ready = true →
    exec (decode s.cfg.wideBits (cmdWord (nextEdge s).cmdOp (nextEdge s).cmdData)) s = .next t →
    step s = .next { t with ready := (nextEdge s).finishes, edges := s.edges.tail, cycle := s.cycle + 1 }) ∧
  (∀ s : State, (nextEdge s).rst = false → (nextEdge s).cmdValid = false ∨ s.ready = false →
    step s = .next { s with
      ready := s.ready || (nextEdge s).finishes, edges := s.edges.tail, cycle := s.cycle + 1 }) ∧
  (∀ (s : State) (es : List Edge),
    digestPort { s with edges := es } = digestPort s ∧ donePort { s with edges := es } = donePort s) ∧
  ∀ s : State, s.ready = true → digestPort s = assemble s.h1 s.h2 ∧ donePort s = s.done

/-- The handshake (R78). A command not accepted leaves no trace, so it may be withdrawn; `cmd_ready` falls only after an
accepted command or reset; an accepted command is executed once, and once `cmd_ready` is 1 the outputs show its whole
effect; and it does not stay 0 for ever. That `cmd_ready` falls only after an accepted command or reset, and that the
block finishes at the first edge after the schedule's end, is the model's deduction from R78 (log entry 3); the fields
`edges` and `cycle` are the model's own (log entries 2 and 5). That `h1`, `h2` and `done` have their new values already
while the block works, as the third clause says, is the model's deduction too (log entry 11). -/
def Obligations.Handshake : Prop :=
  (∀ (s : State) (e e' : Edge) (es : List Edge), e.rst = false → e'.rst = false → e.finishes = e'.finishes →
    e.cmdValid = false ∨ s.ready = false → e'.cmdValid = false ∨ s.ready = false →
    step { s with edges := e :: es } = step { s with edges := e' :: es } ∧
    ∃ t : State, step { s with edges := e :: es } = .next t ∧ t.h1 = s.h1 ∧ t.h2 = s.h2 ∧ t.done = s.done) ∧
  (∀ s t : State, step s = .next t → s.ready = true → t.ready = false →
    (nextEdge s).rst = true ∨ (nextEdge s).cmdValid = true) ∧
  (∀ (n : Nat) (s : State) (i : Instr), events s.cfg.wideBits s.ready (upcoming n s) = [.command i] →
    ∃ t u : State, Sys2Proof.core.run n s = .next t ∧ exec i s = .next u ∧
      t.h1 = u.h1 ∧ t.h2 = u.h2 ∧ t.done = u.done ∧
      (t.ready = true → digestPort t = digest u ∧ donePort t = u.done)) ∧
  ∀ s : State, ∃ (n : Nat) (t : State), Sys2Proof.core.run n s = .next t ∧ t.ready = true

/-! ## The command word -/

/-- R31: the decoder by match and mask, and the opcode map. -/
def Obligations.DecoderFollowsOpcodeMap : Prop :=
  (∀ (w : WideBits) (cw : CmdWord),
    (cw &&& 0x30000000000000000#66 = 0x00000000000000000#66 → ∃ seed, decode w cw = .init seed) ∧
    (cw &&& 0x30000000000000000#66 = 0x10000000000000000#66 → ∃ u, decode w cw = .upd8 u) ∧
    (cw &&& 0x30000000000000000#66 = 0x20000000000000000#66 → ∃ u, decode w cw = .updw u) ∧
    (cw &&& 0x30000000000000000#66 = 0x30000000000000000#66 → decode w cw = .fin)) ∧
  ∀ (w : WideBits) (cw : CmdWord), ∃ r ∈ opcodeTable,
    r.covers cw = true ∧ r.mnemonic = (decode w cw).mnemonic ∧ ∀ r' ∈ opcodeTable, r'.covers cw = true → r' = r

/-- R32: how each operand is formed from the command word, for both values of `WIDE_BITS`. -/
def Obligations.OperandAssembly : Prop :=
  ∀ (w : WideBits) (cw : CmdWord),
    (opField cw = 0#2 → ∃ seed, decode w cw = .init seed ∧ seed.toNat = cw.toNat % 2 ^ 64) ∧
    (opField cw = 1#2 → ∃ ch, unitOf w (decode w cw) = some ch ∧ ch.toNat = cw.toNat % 2 ^ 8) ∧
    (opField cw = 2#2 → ∃ ch, unitOf w (decode w cw) = some ch ∧ ch.toNat = cw.toNat % 2 ^ w.bits) ∧
    (opField cw = 3#2 → decode w cw = .fin)

/-- R33: two command words of the same `op` that agree in the operand bits have the same next state from every state;
all 64 seed bits are operand bits; an assembler writes zeros in the ignored bits. -/
def Obligations.IgnoredBitsHaveNoEffect : Prop :=
  (∀ (s : State) (cw cw' : CmdWord), opField cw = opField cw' →
    dataField cw &&& operandMask s.cfg.wideBits (opField cw) =
      dataField cw' &&& operandMask s.cfg.wideBits (opField cw') →
    ∃ t : State, exec (decode s.cfg.wideBits cw) s = .next t ∧ exec (decode s.cfg.wideBits cw') s = .next t) ∧
  (∀ (w : WideBits) (d d' : DWord), decode w (cmdWord 0#2 d) = decode w (cmdWord 0#2 d') → d = d') ∧
  ∀ (w : WideBits) (i : Instr), i.wellFormed w = true →
    dataField (encode i) &&& operandMask w (opField (encode i)) = dataField (encode i)

/-- R34: every command word is a command with a next state, and none is a no-operation. -/
def Obligations.EveryWordIsACommand : Prop :=
  (∀ (cw : CmdWord) (s : State), ∃ t : State, exec (decode s.cfg.wideBits cw) s = .next t) ∧
  ∀ (w : WideBits) (cw : CmdWord), ∃ s t : State, s.cfg.wideBits = w ∧ exec (decode w cw) s = .next t ∧
    (t.h1, t.h2, t.done) ≠ (s.h1, s.h2, s.done)

/-- Decode and encode agree: a well-formed command comes back from its word, every word decodes to a well-formed
command, and encoding that command gives the word with its ignored bits cleared. -/
def Obligations.DecodeEncodeAgree : Prop :=
  (∀ (w : WideBits) (i : Instr), i.wellFormed w = true → decode w (encode i) = i) ∧
  ∀ (w : WideBits) (cw : CmdWord), (decode w cw).wellFormed w = true ∧
    encode (decode w cw) = cmdWord (opField cw) (dataField cw &&& operandMask w (opField cw))

/-- A few command words written out from the spec's encoding tables decode to the commands they stand for. -/
def Obligations.DecodeSampleWords : Prop :=
  decode .w32 0x0FFFFFFFFFFFFFFFF#66 = .init 0xFFFFFFFFFFFFFFFF#64 ∧
  decode .w32 0x1FFFFFFFFFFFFFFE9#66 = .upd8 0xE9#8 ∧
  decode .w32 0x2000000000001F600#66 = .updw 0x1F600#32 ∧
  decode .w16 0x2000000000001F600#66 = .updw 0xF600#32 ∧
  decode .w32 0x3DEADBEEFDEADBEEF#66 = .fin

/-! ## The commands -/

/-- R40: `INIT seed` writes both accumulators from the seed and clears `DONE`, from every state; its word carries the
whole seed. -/
def Obligations.InitEffect : Prop :=
  (∀ (seed : DWord) (s : State), ∃ a b : Word,
    exec (.init seed) s = .next { s with h1 := a, h2 := b, done := false } ∧
    a.toNat = (seed.toNat ^^^ 0xDEADBEEF) % 2 ^ 32 ∧ b.toNat = (seed.toNat ^^^ 0x41C6CE57) % 2 ^ 32 ∧
    a = seed.extractLsb' 0 32 ^^^ 0xDEADBEEF#32 ∧ b = seed.extractLsb' 0 32 ^^^ 0x41C6CE57#32 ∧
    a ^^^ b = 0x9F6B70B8#32) ∧
  ∀ (w : WideBits) (seed : DWord), opField (encode (.init seed)) = 0#2 ∧ dataField (encode (.init seed)) = seed ∧
    decode w (encode (.init seed)) = .init seed

/-- R41: `UPD8 unit` mixes the zero-extended low byte into both old accumulators and clears `DONE`; bits 63:8 are
ignored; a zero unit leaves `H1` unchanged exactly for multiples of 2^28 and `H2` exactly for multiples of 2^30. -/
def Obligations.Upd8Effect : Prop :=
  (∀ (u : Byte) (s : State), ∃ a b : Word,
    exec (.upd8 u) s = .next { s with h1 := a, h2 := b, done := false } ∧
    a.toNat = (2654435761 * (s.h1 ^^^ u.setWidth 32).toNat) % 2 ^ 32 ∧
    b.toNat = (1597334677 * (s.h2 ^^^ u.setWidth 32).toNat) % 2 ^ 32 ∧
    (u = 0#8 → (a = s.h1 ↔ s.h1.toNat % 2 ^ 28 = 0) ∧ (b = s.h2 ↔ s.h2.toNat % 2 ^ 30 = 0))) ∧
  (∀ (w : WideBits) (d : DWord), decode w (cmdWord 1#2 d) = .upd8 (d.extractLsb' 0 8)) ∧
  ∀ u : Byte, opField (encode (.upd8 u)) = 1#2 ∧ dataField (encode (.upd8 u)) = u.setWidth 64

/-- R42: `UPDW unit` mixes the low `WIDE_BITS` bits, zero-extended, into both old accumulators and clears `DONE`, for
both values of `WIDE_BITS`; a unit of at most 255 acts as UPD8; no other `WIDE_BITS` can be built. -/
def Obligations.UpdwEffect : Prop :=
  (∀ (u : Word) (s : State), ∃ a b ch : Word,
    exec (.updw u) s = .next { s with h1 := a, h2 := b, done := false } ∧
    ch.toNat = u.toNat % 2 ^ s.cfg.wideBits.bits ∧
    a.toNat = (2654435761 * (s.h1 ^^^ ch).toNat) % 2 ^ 32 ∧
    b.toNat = (1597334677 * (s.h2 ^^^ ch).toNat) % 2 ^ 32) ∧
  (∀ (w : WideBits) (d : DWord), ∃ u : Word, decode w (cmdWord 2#2 d) = .updw u ∧ u.toNat = d.toNat % 2 ^ w.bits) ∧
  (∀ u : Word, opField (encode (.updw u)) = 2#2 ∧ dataField (encode (.updw u)) = u.setWidth 64) ∧
  (∀ (v : Byte) (s : State), exec (.updw (v.setWidth 32)) s = exec (.upd8 v) s) ∧
  ∀ n : Nat, (∃ w : WideBits, WideBits.ofNat? n = some w ∧ w.bits = n) ↔ n = 16 ∨ n = 32

/-- R44: `FIN` writes the finalised pair, `a` first and then `b` from `a`, sets `DONE`, and `digest` then shows
`{11'b0, b[20:0], a}`; its operand is ignored. -/
def Obligations.FinEffect : Prop :=
  (∀ s : State, ∃ (a b : Word) (t : State),
    exec .fin s = .next t ∧ t = { s with h1 := a, h2 := b, done := true } ∧
    a.toNat = ((2246822507 * (s.h1 ^^^ s.h1 >>> 16).toNat) ^^^ (3266489909 * (s.h2 ^^^ s.h2 >>> 13).toNat)) % 2 ^ 32 ∧
    b.toNat = ((2246822507 * (s.h2 ^^^ s.h2 >>> 16).toNat) ^^^ (3266489909 * (a ^^^ a >>> 13).toNat)) % 2 ^ 32 ∧
    digest t = 0#11 ++ b.extractLsb' 0 21 ++ a) ∧
  (∀ (w : WideBits) (d : DWord), decode w (cmdWord 3#2 d) = .fin) ∧
  encode .fin = 0x30000000000000000#66

/-- What surrounds the block is left alone by every command, and so is every state item a command does not write. -/
def Obligations.CommandFrame : Prop :=
  ∀ (i : Instr) (s : State), ∃ t : State, exec i s = .next t ∧
    t.ready = s.ready ∧ t.cfg = s.cfg ∧ t.edges = s.edges ∧ t.cycle = s.cycle ∧
    (t.done = true ↔ i = .fin)

/-! ## The functions -/

/-- R5: `low32`. -/
def Obligations.Low32IsModulo : Prop :=
  ∀ x : Nat, (low32 x).toNat = x % 2 ^ 32

/-- R7: the laws of `low32`, of the logical shifts and of the odd multipliers. -/
def Obligations.ArithmeticLaws : Prop :=
  (∀ a b : Nat, low32 (a * b) = low32 ((low32 a).toNat * (low32 b).toNat)) ∧
  (∀ a b : Nat, low32 (a ^^^ b) = low32 a ^^^ low32 b) ∧
  (∀ a b : Nat, low32 (a * b) = low32 a * low32 b) ∧
  (∀ (h : Word) (k : Nat), k ≤ 31 → (h >>> k).toNat < 2 ^ (32 - k) ∧
    ∀ j : Nat, 32 - k ≤ j → j < 32 → (xorShift h k).getLsbD j = h.getLsbD j) ∧
  (∀ c ∈ [mul1, mul2, fmulA, fmulB], Function.Bijective (fun v : Word => low32 (c * v.toNat))) ∧
  ∀ k : Nat, 1 ≤ k → Function.Bijective (fun v : Word => xorShift v k)

/-- A 32-bit datapath is exact (R77 (d)): `mix` and `avalanche` equal the ones made of 32-bit multipliers, XORs and
shifters only, whose formulas are written out. -/
def Obligations.NarrowDatapathIsExact : Prop :=
  (∀ h1 h2 ch : Word, mix h1 h2 ch = mix32 h1 h2 ch) ∧
  (∀ h1 h2 : Word, avalanche h1 h2 = avalanche32 h1 h2) ∧
  (∀ h1 h2 ch : Word, mix h1 h2 ch = ((h1 ^^^ ch) * 0x9E3779B1#32, (h2 ^^^ ch) * 0x5F356495#32)) ∧
  ∀ h1 h2 : Word, ∃ a b : Word, avalanche h1 h2 = (a, b) ∧
    a = ((h1 ^^^ h1 >>> 16) * 0x85EBCA6B#32) ^^^ ((h2 ^^^ h2 >>> 13) * 0xC2B2AE35#32) ∧
    b = ((h2 ^^^ h2 >>> 16) * 0x85EBCA6B#32) ^^^ ((a ^^^ a >>> 13) * 0xC2B2AE35#32)

/-- R43: the mix step: its formula, that each component is a bijection for a fixed unit, and when it is 0. -/
def Obligations.MixFunction : Prop :=
  (∀ h1 h2 ch : Word,
    (mix h1 h2 ch).1.toNat = (2654435761 * (h1 ^^^ ch).toNat) % 2 ^ 32 ∧
    (mix h1 h2 ch).2.toNat = (1597334677 * (h2 ^^^ ch).toNat) % 2 ^ 32) ∧
  (∀ h ch : Word, Function.Bijective (fun v => (mix v h ch).1) ∧ Function.Bijective (fun v => (mix h v ch).2)) ∧
  (∀ h1 h2 ch : Word, ((mix h1 h2 ch).1 = 0#32 ↔ h1 = ch) ∧ ((mix h1 h2 ch).2 = 0#32 ↔ h2 = ch)) ∧
  ∀ (v : Byte) (s : State), exec (.upd8 v) s = exec (.updw (v.setWidth 32)) s

/-- R45: the finalisation: both lines, the second from the first line's result; `(0, 0)` is fixed; the map is a
bijection of pairs, by way of `H1 -> a` for fixed `H2` and `H2 -> b` for fixed `a`. -/
def Obligations.AvalancheFunction : Prop :=
  (∀ h1 h2 : Word, ∃ a b : Word, avalanche h1 h2 = (a, b) ∧
    a.toNat = ((2246822507 * (h1 ^^^ h1 >>> 16).toNat) ^^^ (3266489909 * (h2 ^^^ h2 >>> 13).toNat)) % 2 ^ 32 ∧
    b.toNat = ((2246822507 * (h2 ^^^ h2 >>> 16).toNat) ^^^ (3266489909 * (a ^^^ a >>> 13).toNat)) % 2 ^ 32) ∧
  avalanche 0#32 0#32 = (0#32, 0#32) ∧
  Function.Bijective (fun p : Word × Word => avalanche p.1 p.2) ∧
  (∀ h2 : Word, Function.Bijective (fun h1 => (avalanche h1 h2).1)) ∧
  ∀ a : Word, ∃ f : Word → Word, Function.Bijective f ∧
    ∀ h1 h2 : Word, (avalanche h1 h2).1 = a → (avalanche h1 h2).2 = f h2

/-- R46: the result assembly, as a number, as a concatenation and bit by bit; it stays below 2^53. -/
def Obligations.AssembleFunction : Prop :=
  ∀ h1 h2 : Word,
    (assemble h1 h2).toNat = 4294967296 * (h2.toNat &&& 2097151) + h1.toNat ∧
    assemble h1 h2 = 0#11 ++ h2.extractLsb' 0 21 ++ h1 ∧
    (∀ i : Nat, i < 32 → (assemble h1 h2).getLsbD i = h1.getLsbD i) ∧
    (∀ j : Nat, j ≤ 20 → (assemble h1 h2).getLsbD (32 + j) = h2.getLsbD j) ∧
    (∀ i : Nat, 53 ≤ i → (assemble h1 h2).getLsbD i = false) ∧
    (assemble h1 h2).toNat ≤ 2 ^ 53 - 1

/-- R51: every digest is below 2^53 in every state, every hash is, and every value below 2^53 is the digest of some
state. -/
def Obligations.DigestRange : Prop :=
  (∀ s : State, (digest s).toNat < 2 ^ 53) ∧
  (∀ (c : List Word) (k : DWord), (cyrb53 c k).toNat < 2 ^ 53) ∧
  ∀ v : Nat, v < 2 ^ 53 → ∃ s : State, (digest s).toNat = v

/-- R13: `digest` is a wiring of the accumulators in every state, whatever `DONE` is; it reads nothing else. -/
def Obligations.DigestIsWiring : Prop :=
  (∀ s : State, digest s = 0#11 ++ s.h2.extractLsb' 0 21 ++ s.h1) ∧
  (∀ s t : State, s.h1 = t.h1 → s.h2.extractLsb' 0 21 = t.h2.extractLsb' 0 21 → digest s = digest t) ∧
  ∀ s : State, (digest s).extractLsb' 53 11 = 0#11

/-- Bits 31:21 of `H2` cannot be read but influence the future (R19): two states show the same digest, and after FIN
they do not. -/
def Obligations.HiddenBitsReachTheDigest : Prop :=
  ∃ s t s' t' : State, digest s = digest t ∧ s.h1 = t.h1 ∧ exec .fin s = .next s' ∧ exec .fin t = .next t' ∧
    digest s' ≠ digest t'

/-! ## Order, state and hazards -/

/-- R12: FIN sets `DONE`; INIT, UPD8, UPDW and reset clear it; nothing else changes it; no command reads it. After any
number of edges it says whether the last event was FIN: the edges are the model's schedule (log entries 2 and 3), and
that `done` has its new value already while the block works on a command is the model's deduction (log entry 11). -/
def Obligations.DoneFlag : Prop :=
  (∀ (i : Instr) (s : State), ∃ t : State, exec i s = .next t ∧ t.done = decide (i = .fin)) ∧
  (∀ (i : Instr) (s : State) (d : Bool), ∃ t t' : State, exec i s = .next t ∧
    exec i { s with done := d } = .next t' ∧ t'.h1 = t.h1 ∧ t'.h2 = t.h2) ∧
  ∀ (n : Nat) (s : State), ∃ t : State, Sys2Proof.core.run n s = .next t ∧
    t.done = match (events s.cfg.wideBits s.ready (upcoming n s)).getLast? with
      | none => s.done
      | some v => decide (v = .command .fin)

/-- The commands are executed one at a time, in the order accepted (R26): any number of clock edges leaves what the
fold of `exec` over the events leaves, and a sequence is executed after what was executed before it. What is said of
`ready`, `edges` and `cycle` is the model's choice (log entries 2, 3 and 5), and so is that `h1`, `h2` and `done` have
their new values already while the block works (log entry 11). -/
def Obligations.RunIsFoldOfAcceptedCommands : Prop :=
  (∀ (n : Nat) (s : State), ∃ t u : State, Sys2Proof.core.run n s = .next t ∧
    runEvents (events s.cfg.wideBits s.ready (upcoming n s)) s = .next u ∧
    t.h1 = u.h1 ∧ t.h2 = u.h2 ∧ t.done = u.done ∧
    t.ready = readyAfterAll s.ready (upcoming n s) ∧ t.cfg = s.cfg ∧
    t.edges = s.edges.drop n ∧ t.cycle = s.cycle + n ∧
    (t.ready = true → digestPort t = digest u ∧ donePort t = u.done)) ∧
  ∀ (cs ds : List Instr) (s t u : State), runCommands cs s = .next t → runCommands ds t = .next u →
    runCommands (cs ++ ds) s = .next u

/-- R16: two blocks in the same state `(H1, H2, DONE)` behave identically for every command sequence, and, driven by
the same edges from the same `cmd_ready`, after every number of edges. -/
def Obligations.SameStateSameBehaviour : Prop :=
  (∀ (cs : List Instr) (s s' : State), s.h1 = s'.h1 → s.h2 = s'.h2 → s.done = s'.done → s.cfg = s'.cfg →
    ∃ t t' : State, runCommands cs s = .next t ∧ runCommands cs s' = .next t' ∧
      t.h1 = t'.h1 ∧ t.h2 = t'.h2 ∧ t.done = t'.done) ∧
  ∀ (n : Nat) (s s' : State), s.h1 = s'.h1 → s.h2 = s'.h2 → s.done = s'.done → s.cfg = s'.cfg →
    s.ready = s'.ready → s.edges = s'.edges →
    ∃ t t' : State, Sys2Proof.core.run n s = .next t ∧ Sys2Proof.core.run n s' = .next t' ∧
      t.h1 = t'.h1 ∧ t.h2 = t'.h2 ∧ t.done = t'.done ∧ t.ready = t'.ready

/-- R60: no command and no clock edge faults or is refused, in any state; the build parameters stay as they are. -/
def Obligations.NothingFaults : Prop :=
  (∀ (i : Instr) (s : State), ∃ t : State, exec i s = .next t ∧ t.cfg = s.cfg) ∧
  ∀ s : State, ∃ t : State, step s = .next t ∧ t.cfg = s.cfg

/-- INIT is idempotent and forgets everything before it; UPD8, UPDW and FIN are not idempotent (R25, R40 (e)). -/
def Obligations.InitForgetsTheRestDoNot : Prop :=
  (∀ (cs : List Instr) (k : DWord) (s : State), ∃ t u : State,
    runCommands (cs ++ [.init k]) s = .next t ∧ exec (.init k) s = .next u ∧
    t.h1 = u.h1 ∧ t.h2 = u.h2 ∧ t.done = u.done) ∧
  (∀ (k : DWord) (s t : State), exec (.init k) s = .next t → exec (.init k) t = .next t) ∧
  ∀ i : Instr, (i = .fin ∨ isUpdate i = true) →
    ∃ s t u : State, exec i s = .next t ∧ exec i t = .next u ∧ (u.h1, u.h2) ≠ (t.h1, t.h2)

/-! ## The whole hash -/

/-- R47 and R48: the formula of the hash, and that a transaction executed from any state ends with `DONE = 1` and that
hash on `digest`; right after reset the INIT may be absent, and then the seed is 0. -/
def Obligations.TransactionComputesHash : Prop :=
  (∀ k : DWord, absorbAll k [] =
    (low32 (k.toNat ^^^ 0xDEADBEEF), low32 (k.toNat ^^^ 0x41C6CE57))) ∧
  (∀ (k : DWord) (c : List Word) (ch : Word),
    absorbAll k (c ++ [ch]) = mix (absorbAll k c).1 (absorbAll k c).2 ch) ∧
  (∀ (k : DWord) (c : List Word), ∃ a b : Word, avalanche (absorbAll k c).1 (absorbAll k c).2 = (a, b) ∧
    (cyrb53 c k).toNat = 4294967296 * (b.toNat &&& 2097151) + a.toNat) ∧
  (∀ (k : DWord) (us : List Instr) (s : State), us.all isUpdate = true →
    ∃ t : State, runCommands (transaction k us) s = .next t ∧ t.done = true ∧
      digest t = cyrb53 (unitsOf s.cfg.wideBits us) k) ∧
  ∀ (us : List Instr) (s : State), us.all isUpdate = true →
    ∃ t : State, runCommands (us ++ [.fin]) (resetBlock s) = .next t ∧ t.done = true ∧
      digest t = cyrb53 (unitsOf s.cfg.wideBits us) 0#64

/-- The transaction form as a check on command sequences (R47, R73): it accepts INIT, updates, FIN and nothing else. -/
def Obligations.TransactionFormCheck : Prop :=
  ∀ cs : List Instr, isTransaction cs = true ↔
    ∃ (k : DWord) (us : List Instr), us.all isUpdate = true ∧ cs = transaction k us

/-- R49: the two entry points and the expansions that compute them; updates of both kinds may be mixed. -/
def Obligations.EntryPoints : Prop :=
  (∀ (l : List Byte) (k : DWord), hash8 l k = cyrb53 (l.map (fun u => u.setWidth 32)) k) ∧
  (∀ (w : WideBits) (l : List (BitVec w.bits)) (k : DWord), hashWide w l k = cyrb53 (l.map (fun u => u.setWidth 32)) k) ∧
  (∀ (l : List Byte) (k : DWord) (s : State), ∃ t : State,
    runCommands (hash8Commands l k) s = .next t ∧ t.done = true ∧ digest t = hash8 l k) ∧
  (∀ (w : WideBits) (l : List (BitVec w.bits)) (k : DWord) (s : State), s.cfg.wideBits = w → ∃ t : State,
    runCommands (hashWideCommands w l k) s = .next t ∧ t.done = true ∧ digest t = hashWide w l k) ∧
  ∀ (us : List Instr) (k : DWord) (s : State), us.all isUpdate = true → ∃ t : State,
    runCommands (transaction k us) s = .next t ∧ digest t = cyrb53 (unitsOf s.cfg.wideBits us) k

/-- R50: the digest after a transaction depends on its operands alone: not on the state or the events before it, not on
the edges between its commands or how long each command takes, and not on `WIDE_BITS` while every unit fits. The edges are
the model's schedule (log entries 2 and 3); that the first clause holds as soon as the FIN is accepted, also while the
block works on it, is the model's deduction (log entry 11). -/
def Obligations.HashIsDeterministic : Prop :=
  (∀ (n : Nat) (s : State) (before : List Event) (k : DWord) (us : List Instr), us.all isUpdate = true →
    events s.cfg.wideBits s.ready (upcoming n s) = before ++ (transaction k us).map .command →
    ∃ t : State, Sys2Proof.core.run n s = .next t ∧ t.done = true ∧
      digest t = cyrb53 (unitsOf s.cfg.wideBits us) k) ∧
  ∀ us : List Instr, us.all (Instr.wellFormed .w16) = true → unitsOf .w16 us = unitsOf .w32 us

/-- Cycle counts (R79): with any latencies, each at least 1, a transaction of `n` units takes
`LAT_INIT + n * LAT_UPD + LAT_FIN` clock edges plus the edges in which the host offers nothing, as many as it likes
before each command; then `cmd_ready` and `done` are 1 and `digest` is the hash, whatever the host drives at its ports
while the block works. The hash depends on none of the latencies or pauses. That a schedule carries the latencies, by
the free choice `finishes` of its edges, is the model's choice (log entries 2, 3 and 15). -/
def Obligations.TransactionCycleCount : Prop :=
  ∀ (l : Latencies) (noise : Edge) (k : DWord) (us : List Instr) (ps : List (Nat × Instr)) (rest : List Edge)
    (s : State), l.legal = true → us.all isUpdate = true → ps.map Prod.snd = transaction k us → s.ready = true →
    s.edges = commandSchedule l noise ps ++ rest →
    ∃ t : State,
      Sys2Proof.core.run (l.init + us.length * l.upd + l.fin + (ps.map Prod.fst).sum) s = .next t ∧
      t.ready = true ∧ donePort t = true ∧ digestPort t = cyrb53 (unitsOf s.cfg.wideBits us) k ∧ t.edges = rest

/-- R52: every command sequence from every state ends in a next state, a transaction of `n` units has `n + 2` commands,
and no state is one in which the block refuses commands for ever. -/
def Obligations.HashIsTotal : Prop :=
  (∀ (cs : List Instr) (s : State), ∃ t : State, runCommands cs s = .next t) ∧
  (∀ (k : DWord) (us : List Instr), (transaction k us).length = us.length + 2) ∧
  ∀ s : State, ∃ (n : Nat) (t : State), Sys2Proof.core.run n s = .next t ∧ t.ready = true

/-- R53: a sequence of units of at most 255 hashes alike through HASH8 and HASHWIDE, for both values of `WIDE_BITS`, and
leaves the same state; the narrow units 0xC3, 0xA9 and the wide unit 0xE9 do not. -/
def Obligations.WidthVariantsAgree : Prop :=
  (∀ (w : WideBits) (l : List Byte) (k : DWord) (s : State), s.cfg.wideBits = w →
    hash8 l k = hashWide w (l.map (fun u => u.setWidth w.bits)) k ∧
    ∃ t : State, runCommands (hash8Commands l k) s = .next t ∧
      runCommands (hashWideCommands w (l.map (fun u => u.setWidth w.bits)) k) s = .next t) ∧
  hash8 [0xC3#8, 0xA9#8] 0#64 ≠ hashWide .w32 [0xE9#32] 0#64

/-- R54: the empty input: the hash of the seed alone. -/
def Obligations.EmptyInput : Prop :=
  (∀ (k : DWord) (s : State), ∃ t : State, runCommands [.init k, .fin] s = .next t ∧ t.done = true ∧
    digest t = assemble (avalanche (low32 (k.toNat ^^^ 0xDEADBEEF)) (low32 (k.toNat ^^^ 0x41C6CE57))).1
      (avalanche (low32 (k.toNat ^^^ 0xDEADBEEF)) (low32 (k.toNat ^^^ 0x41C6CE57))).2) ∧
  (cyrb53 [] 0#64).toNat = 3338908027751811

/-- R55: seed sensitivity and its limit: the four seeds of the source's table give pairwise different hashes of
`"revenue"`; the hash depends on the seed through its low 32 bits only; seeds that differ there give different
finalised pairs for every sequence; the 53-bit hashes can still collide. -/
def Obligations.SeedSensitivity : Prop :=
  ([0#64, 1#64, 2#64, 3#64].map
    (hash8 [0x72#8, 0x65#8, 0x76#8, 0x65#8, 0x6E#8, 0x75#8, 0x65#8])).Pairwise (· ≠ ·) ∧
  (∀ (c : List Word) (k k' : DWord), k.toNat % 2 ^ 32 = k'.toNat % 2 ^ 32 → cyrb53 c k = cyrb53 c k') ∧
  (∀ (c : List Word) (k k' : DWord), k.toNat % 2 ^ 32 ≠ k'.toNat % 2 ^ 32 → finalPair k c ≠ finalPair k' c) ∧
  ∃ (c : List Word) (k k' : DWord), k.toNat % 2 ^ 32 ≠ k'.toNat % 2 ^ 32 ∧ cyrb53 c k = cyrb53 c k'

/-- R75: the upper half of the seed is not used: `INIT k` and `INIT (k mod 2^32)` are the same command in effect, and
seeds that differ only in bits 63:32 give the same hash of every input. -/
def Obligations.UpperSeedHalfUnused : Prop :=
  (∀ (k : DWord) (s : State), ∃ t : State,
    exec (.init k) s = .next t ∧ exec (.init (BitVec.ofNat 64 (k.toNat % 2 ^ 32))) s = .next t) ∧
  ∀ (c : List Word) (k k' : DWord), k.toNat % 2 ^ 32 = k'.toNat % 2 ^ 32 → cyrb53 c k = cyrb53 c k'

/-- The order of the units counts and zero units count (R21). -/
def Obligations.OrderAndZeroUnitsCount : Prop :=
  (∃ (l : List Byte) (k : DWord), hash8 l k ≠ hash8 l.reverse k) ∧
  ∃ k : DWord, hash8 [] k ≠ hash8 [0#8] k ∧ hash8 [0#8] k ≠ hash8 [0#8, 0#8] k ∧ hash8 [] k ≠ hash8 [0#8, 0#8] k

/-! ## Keeping to the transaction form -/

/-- An invariant of runs in which the host keeps to the transaction form: the accumulators hold what some seed and some
units give, finalised exactly when `DONE = 1`. Every clock edge keeps it. The schedule is the model's (log entries 2 and
3), and that the accumulators hold this already while the block works is the model's deduction (log entry 11). -/
def Obligations.SafeRunIsKept : Prop :=
  ∀ s s' : State, SafeRun s → step s = .next s' → SafeRun s'

/-- The state after reset meets it, also with any schedule that keeps to the form. -/
def Obligations.SafeRunAtReset : Prop :=
  SafeRun State.reset ∧
  ∀ es : List Edge, keepsForm true (events Config.default.wideBits State.reset.ready es) = true →
    SafeRun { State.reset with edges := es }

/-- In a safe run a result on show is the hash of some sequence under some seed (R72). -/
def Obligations.ResultOnShowIsAHash : Prop :=
  ∀ s : State, SafeRun s → resultOnShow s = true →
    donePort s = true ∧ ∃ (k : DWord) (c : List Word), digestPort s = cyrb53 c k

/-! ## The textual form -/

/-- The text of a command assembles to that command, and its word is the command's encoding (R36; the form of the text
is the model's choice, log entry 12). -/
def Obligations.AssemblerRoundTrip : Prop :=
  ∀ (w : WideBits) (i : Instr), i.wellFormed w = true →
    asmLine w (disasm i) = some [i] ∧ asmProgram w [disasm i] = some [encode i] ∧ disasmWord w (encode i) = disasm i

/-- The assembler takes exactly the numbers of each operand's range, with their value, and refuses the others rather than
truncate them (R36): for decimal and hexadecimal numbers and character literals, in the three commands and, for units
and seed, in both pseudo-instructions. Where blanks stand in the line is the model's choice (log entry 12). -/
def Obligations.AssemblerRefusesOutOfRange : Prop :=
  (∀ (w : WideBits) (x : Numeral), x.legal = true →
    asmLine w (['I', 'N', 'I', 'T', ' '] ++ x.text) =
      (if x.value < 2 ^ 64 then some [.init (BitVec.ofNat 64 x.value)] else none) ∧
    asmLine w (['U', 'P', 'D', '8', ' '] ++ x.text) =
      (if x.value < 2 ^ 8 then some [.upd8 (BitVec.ofNat 8 x.value)] else none) ∧
    asmLine w (['U', 'P', 'D', 'W', ' '] ++ x.text) =
      (if x.value < 2 ^ w.bits then some [.updw (BitVec.ofNat 32 x.value)] else none)) ∧
  ∀ (w : WideBits) (xs : List Numeral) (k : Numeral), xs.all Numeral.legal = true → k.legal = true →
    asmLine w (['H', 'A', 'S', 'H', '8', ' '] ++ listText (xs.map Numeral.text) ++ [',', ' '] ++ k.text) =
      (if (∀ x ∈ xs, x.value < 2 ^ 8) ∧ k.value < 2 ^ 64 then
        some (hash8Commands (xs.map (fun x => BitVec.ofNat 8 x.value)) (BitVec.ofNat 64 k.value)) else none) ∧
    asmLine w (['H', 'A', 'S', 'H', 'W', 'I', 'D', 'E', ' '] ++ listText (xs.map Numeral.text) ++ [',', ' '] ++ k.text) =
      (if (∀ x ∈ xs, x.value < 2 ^ w.bits) ∧ k.value < 2 ^ 64 then
        some (hashWideCommands w (xs.map (fun x => BitVec.ofNat w.bits x.value)) (BitVec.ofNat 64 k.value)) else none)

/-- The two pseudo-instructions (R37): their expansions, with `n + 2` commands, and their textual forms: a list of
numbers or a string, each with a seed and with the seed omitted, which is then 0; a line with a number outside its range
is refused. Blanks and digits of the text, and that a semicolon inside quotes starts no comment, are the model's choice
(log entry 12). -/
def Obligations.PseudoInstructionsExpand : Prop :=
  (∀ (l : List Byte) (k : DWord), hash8Commands l k = .init k :: (l.map .upd8 ++ [.fin]) ∧
    (hash8Commands l k).length = l.length + 2) ∧
  (∀ (w : WideBits) (l : List (BitVec w.bits)) (k : DWord),
    hashWideCommands w l k = .init k :: (l.map (fun u => .updw (u.setWidth 32)) ++ [.fin]) ∧
    (hashWideCommands w l k).length = l.length + 2) ∧
  (∀ (w : WideBits) (l : List Byte) (k : DWord), asmLine w (hash8Text l k) = some (hash8Commands l k)) ∧
  (∀ (w : WideBits) (l : List (BitVec w.bits)) (k : DWord),
    asmLine w (hashWideText w l k) = some (hashWideCommands w l k)) ∧
  (∀ (w : WideBits) (xs : List Numeral) (k : Option Numeral), xs.all Numeral.legal = true → k.all Numeral.legal = true →
    asmLine w (['H', 'A', 'S', 'H', '8', ' '] ++ listText (xs.map Numeral.text) ++ seedText k) =
      (if (∀ x ∈ xs, x.value < 2 ^ 8) ∧ seedValue k < 2 ^ 64 then
        some (hash8Commands (xs.map (fun x => BitVec.ofNat 8 x.value)) (BitVec.ofNat 64 (seedValue k))) else none) ∧
    asmLine w (['H', 'A', 'S', 'H', 'W', 'I', 'D', 'E', ' '] ++ listText (xs.map Numeral.text) ++ seedText k) =
      (if (∀ x ∈ xs, x.value < 2 ^ w.bits) ∧ seedValue k < 2 ^ 64 then
        some (hashWideCommands w (xs.map (fun x => BitVec.ofNat w.bits x.value)) (BitVec.ofNat 64 (seedValue k)))
      else none)) ∧
  ∀ (w : WideBits) (cs : List Char) (k : Option Numeral), cs.all isPrintable = true → stringChar ∉ cs →
    k.all Numeral.legal = true →
    asmLine w (['H', 'A', 'S', 'H', '8', ' '] ++ quotedText cs ++ seedText k) =
      (if seedValue k < 2 ^ 64 then
        some (hash8Commands (cs.map (fun c => BitVec.ofNat 8 c.toNat)) (BitVec.ofNat 64 (seedValue k))) else none) ∧
    asmLine w (['H', 'A', 'S', 'H', 'W', 'I', 'D', 'E', ' '] ++ quotedText cs ++ seedText k) =
      (if seedValue k < 2 ^ 64 then
        some (hashWideCommands w (cs.map (fun c => BitVec.ofNat w.bits c.toNat)) (BitVec.ofNat 64 (seedValue k)))
      else none)
end

