-- ==== Sys2Proof/Laws/State.lean ====
section
/-! SUPPORT. One lemma per field of State per update, so that no proof unfolds a record update. -/

namespace Sys2Proof.Machine

@[simp] theorem clearDone_h1 (s : State) : (clearDone s).h1 = s.h1 := rfl
@[simp] theorem clearDone_h2 (s : State) : (clearDone s).h2 = s.h2 := rfl
@[simp] theorem clearDone_done (s : State) : (clearDone s).done = false := rfl
@[simp] theorem clearDone_ready (s : State) : (clearDone s).ready = s.ready := rfl
@[simp] theorem clearDone_cfg (s : State) : (clearDone s).cfg = s.cfg := rfl
@[simp] theorem clearDone_edges (s : State) : (clearDone s).edges = s.edges := rfl
@[simp] theorem clearDone_cycle (s : State) : (clearDone s).cycle = s.cycle := rfl

@[simp] theorem setDone_h1 (s : State) : (setDone s).h1 = s.h1 := rfl
@[simp] theorem setDone_h2 (s : State) : (setDone s).h2 = s.h2 := rfl
@[simp] theorem setDone_done (s : State) : (setDone s).done = true := rfl
@[simp] theorem setDone_ready (s : State) : (setDone s).ready = s.ready := rfl
@[simp] theorem setDone_cfg (s : State) : (setDone s).cfg = s.cfg := rfl
@[simp] theorem setDone_edges (s : State) : (setDone s).edges = s.edges := rfl
@[simp] theorem setDone_cycle (s : State) : (setDone s).cycle = s.cycle := rfl

@[simp] theorem writeAccs_h1 (p : Word × Word) (s : State) : (writeAccs p s).h1 = p.1 := rfl
@[simp] theorem writeAccs_h2 (p : Word × Word) (s : State) : (writeAccs p s).h2 = p.2 := rfl
@[simp] theorem writeAccs_done (p : Word × Word) (s : State) : (writeAccs p s).done = s.done := rfl
@[simp] theorem writeAccs_ready (p : Word × Word) (s : State) : (writeAccs p s).ready = s.ready := rfl
@[simp] theorem writeAccs_cfg (p : Word × Word) (s : State) : (writeAccs p s).cfg = s.cfg := rfl
@[simp] theorem writeAccs_edges (p : Word × Word) (s : State) : (writeAccs p s).edges = s.edges := rfl
@[simp] theorem writeAccs_cycle (p : Word × Word) (s : State) : (writeAccs p s).cycle = s.cycle := rfl

@[simp] theorem absorb_h1 (ch : Word) (s : State) : (absorb ch s).h1 = (mix s.h1 s.h2 ch).1 := rfl
@[simp] theorem absorb_h2 (ch : Word) (s : State) : (absorb ch s).h2 = (mix s.h1 s.h2 ch).2 := rfl
@[simp] theorem absorb_done (ch : Word) (s : State) : (absorb ch s).done = false := rfl
@[simp] theorem absorb_ready (ch : Word) (s : State) : (absorb ch s).ready = s.ready := rfl
@[simp] theorem absorb_cfg (ch : Word) (s : State) : (absorb ch s).cfg = s.cfg := rfl
@[simp] theorem absorb_edges (ch : Word) (s : State) : (absorb ch s).edges = s.edges := rfl
@[simp] theorem absorb_cycle (ch : Word) (s : State) : (absorb ch s).cycle = s.cycle := rfl

@[simp] theorem resetBlock_h1 (s : State) : (resetBlock s).h1 = low32 init1 := rfl
@[simp] theorem resetBlock_h2 (s : State) : (resetBlock s).h2 = low32 init2 := rfl
@[simp] theorem resetBlock_done (s : State) : (resetBlock s).done = false := rfl
@[simp] theorem resetBlock_ready (s : State) : (resetBlock s).ready = s.ready := rfl
@[simp] theorem resetBlock_cfg (s : State) : (resetBlock s).cfg = s.cfg := rfl
@[simp] theorem resetBlock_edges (s : State) : (resetBlock s).edges = s.edges := rfl
@[simp] theorem resetBlock_cycle (s : State) : (resetBlock s).cycle = s.cycle := rfl

@[simp] theorem takeEdge_h1 (s : State) : (takeEdge s).h1 = s.h1 := rfl
@[simp] theorem takeEdge_h2 (s : State) : (takeEdge s).h2 = s.h2 := rfl
@[simp] theorem takeEdge_done (s : State) : (takeEdge s).done = s.done := rfl
@[simp] theorem takeEdge_ready (s : State) : (takeEdge s).ready = s.ready := rfl
@[simp] theorem takeEdge_cfg (s : State) : (takeEdge s).cfg = s.cfg := rfl
@[simp] theorem takeEdge_edges (s : State) : (takeEdge s).edges = s.edges.tail := rfl
@[simp] theorem takeEdge_cycle (s : State) : (takeEdge s).cycle = s.cycle + 1 := rfl

@[simp] theorem setReady_h1 (r : Bool) (s : State) : (setReady r s).h1 = s.h1 := rfl
@[simp] theorem setReady_h2 (r : Bool) (s : State) : (setReady r s).h2 = s.h2 := rfl
@[simp] theorem setReady_done (r : Bool) (s : State) : (setReady r s).done = s.done := rfl
@[simp] theorem setReady_ready (r : Bool) (s : State) : (setReady r s).ready = r := rfl
@[simp] theorem setReady_cfg (r : Bool) (s : State) : (setReady r s).cfg = s.cfg := rfl
@[simp] theorem setReady_edges (r : Bool) (s : State) : (setReady r s).edges = s.edges := rfl
@[simp] theorem setReady_cycle (r : Bool) (s : State) : (setReady r s).cycle = s.cycle := rfl

@[simp] theorem offerNext_h1 (cw : CmdWord) (s : State) : (offerNext cw s).h1 = s.h1 := rfl
@[simp] theorem offerNext_h2 (cw : CmdWord) (s : State) : (offerNext cw s).h2 = s.h2 := rfl
@[simp] theorem offerNext_done (cw : CmdWord) (s : State) : (offerNext cw s).done = s.done := rfl
@[simp] theorem offerNext_ready (cw : CmdWord) (s : State) : (offerNext cw s).ready = true := rfl
@[simp] theorem offerNext_cfg (cw : CmdWord) (s : State) : (offerNext cw s).cfg = s.cfg := rfl
@[simp] theorem offerNext_edges (cw : CmdWord) (s : State) : (offerNext cw s).edges = offer cw :: s.edges.tail := rfl
@[simp] theorem offerNext_cycle (cw : CmdWord) (s : State) : (offerNext cw s).cycle = s.cycle := rfl

/-- Two states with the same fields are the same state. -/
theorem State.eq_of_fields {s t : State} (h1 : s.h1 = t.h1) (h2 : s.h2 = t.h2) (hd : s.done = t.done)
    (hr : s.ready = t.ready) (hc : s.cfg = t.cfg) (he : s.edges = t.edges) (hn : s.cycle = t.cycle) : s = t := by
  cases s; cases t; simp_all

end Sys2Proof.Machine
end

