-- ==== Sys2Proof/Laws/Ops.lean ====
section
/-! SUPPORT. One lemma per shared operation that says all it does. -/

namespace Sys2Proof.Machine

@[simp] theorem low32_toNat (x : Nat) : (low32 x).toNat = x % 2 ^ 32 := BitVec.toNat_ofNat x 32

theorem low32_of_toNat (v : Word) : low32 v.toNat = v := BitVec.ofNat_toNat 32 v

theorem low32_mul (a b : Nat) : low32 (a * b) = low32 a * low32 b := by
  apply BitVec.eq_of_toNat_eq
  rw [BitVec.toNat_mul]
  simp only [low32_toNat]
  exact Nat.mul_mod a b _

theorem low32_xor (a b : Nat) : low32 (a ^^^ b) = low32 a ^^^ low32 b := by
  apply BitVec.eq_of_toNat_eq
  rw [BitVec.toNat_xor]
  simp only [low32_toNat]
  exact Nat.xor_mod_two_pow

/-- Only the low 32 bits of a factor matter (rule R7 (a)). -/
theorem low32_mul_low32 (a b : Nat) : low32 (a * b) = low32 ((low32 a).toNat * (low32 b).toNat) := by
  rw [low32_mul, low32_mul, low32_of_toNat, low32_of_toNat]

/-- A constant multiplication of the 32-bit datapath is the masked exact product (rule R7 (c)). -/
theorem mul32_eq (v : Word) (c : Nat) : mul32 v c = low32 (c * v.toNat) := by
  rw [mul32, low32_mul, low32_of_toNat, BitVec.mul_comm]

/-- The share of one accumulator as 32-bit wrap-around arithmetic. -/
theorem mixOne_eq (h ch : Word) (m : Nat) : mixOne h ch m = (h ^^^ ch) * low32 m := by
  rw [mixOne, low32_mul, low32_of_toNat, BitVec.mul_comm]

/-- A finalisation line as 32-bit wrap-around arithmetic. -/
theorem finLine_eq (x y : Word) :
    finLine x y = xorShift x shiftA * low32 fmulA ^^^ xorShift y shiftB * low32 fmulB := by
  rw [finLine, low32_xor, low32_mul, low32_mul, low32_of_toNat, low32_of_toNat, BitVec.mul_comm (low32 fmulA),
    BitVec.mul_comm (low32 fmulB)]

theorem mixOne_toNat (h ch : Word) (m : Nat) : (mixOne h ch m).toNat = ((h ^^^ ch).toNat * m) % 2 ^ 32 := by
  rw [mixOne, low32_toNat, Nat.mul_comm]

theorem finLine_toNat (x y : Word) :
    (finLine x y).toNat =
      (((xorShift x shiftA).toNat * fmulA) ^^^ ((xorShift y shiftB).toNat * fmulB)) % 2 ^ 32 := by
  rw [finLine, low32_toNat, Nat.mul_comm fmulA, Nat.mul_comm fmulB]

theorem blendSeed_eq (c : Nat) (seed : DWord) : blendSeed c seed = low32 c ^^^ seed.setWidth 32 := by
  rw [blendSeed, low32_xor, BitVec.xor_comm]
  rfl

/-- The result's upper part is the low 21 bits of `h2`. -/
theorem and_hiMask (x : Nat) : x &&& hiMask = x % 2 ^ 21 :=
  Nat.and_two_pow_sub_one_eq_mod x 21

/-- `assemble` as a number: it cannot overflow. -/
theorem assemble_toNat (h1 h2 : Word) :
    (assemble h1 h2).toNat = 4294967296 * (h2.toNat % 2 ^ 21) + h1.toNat := by
  rw [assemble, and_hiMask, BitVec.toNat_ofNat, hiScale]
  have := h1.isLt
  exact Nat.mod_eq_of_lt (by omega)

theorem narrowUnit_toNat (u : Byte) : (narrowUnit u).toNat = u.toNat := by
  have := u.isLt
  simp only [narrowUnit, BitVec.toNat_setWidth]
  omega

theorem wideUnit_toNat (w : WideBits) (u : Word) : (wideUnit w u).toNat = u.toNat % 2 ^ w.bits := by
  cases w with
  | w16 =>
    simp [wideUnit, WideBits.bits]
    omega
  | w32 => exact (Nat.mod_eq_of_lt u.isLt).symm

/-- A unit that fits `WIDE_BITS` is taken as it is. -/
theorem wideUnit_of_lt {w : WideBits} {u : Word} (h : u.toNat < 2 ^ w.bits) : wideUnit w u = u :=
  BitVec.eq_of_toNat_eq (by rw [wideUnit_toNat, Nat.mod_eq_of_lt h])

@[simp] theorem wideUnit_idem (w : WideBits) (u : Word) : wideUnit w (wideUnit w u) = wideUnit w u :=
  wideUnit_of_lt (by rw [wideUnit_toNat]; exact Nat.mod_lt _ (Nat.two_pow_pos _))

/-- Everything a command can do: it writes the two accumulators and the flag (rules R10, R11). -/
theorem exec_writes (i : Instr) (s : State) :
    ∃ (a b : Word) (d : Bool), exec i s = .next { s with h1 := a, h2 := b, done := d } := by
  cases i <;> exact ⟨_, _, _, rfl⟩

/-- A command neither reads nor writes what surrounds the block: it commutes with a change of `cmd_ready`, of the
schedule and of the edge count. -/
theorem exec_surroundings {i : Instr} {s t : State} (h : exec i s = .next t) (r : Bool) (es : List Edge) (n : Nat) :
    exec i { s with ready := r, edges := es, cycle := n } = .next { t with ready := r, edges := es, cycle := n } := by
  cases i <;> cases h <;> rfl

end Sys2Proof.Machine
end

