-- ==== Sys2Proof/Laws/Decode.lean ====
section
/-! SUPPORT. The fields of the command word, and what the decoder reads from an encoded command. -/

namespace Sys2Proof

@[simp] theorem opField_cmdWord (op : BitVec 2) (d : DWord) : opField (cmdWord op d) = op :=
  BitVec.extractLsb'_append_eq_left

@[simp] theorem dataField_cmdWord (op : BitVec 2) (d : DWord) : dataField (cmdWord op d) = d :=
  BitVec.extractLsb'_append_eq_right

/-- The ports and the command word carry the same bits. -/
@[simp] theorem cmdWord_fields (cw : CmdWord) : cmdWord (opField cw) (dataField cw) = cw := by
  apply BitVec.eq_of_getLsbD_eq
  intro i hi
  simp only [cmdWord, opField, dataField, BitVec.getLsbD_append, BitVec.getLsbD_extractLsb']
  by_cases h : i < 64
  · simp [h]
  · have h' : 64 + (i - 64) = i := by omega
    simp [h, h', show i - 64 < 2 by omega]

theorem decode_cmdWord_init (w : WideBits) (d : DWord) : decode w (cmdWord 0#2 d) = .init d := by
  simp [decode]

theorem decode_cmdWord_upd8 (w : WideBits) (d : DWord) : decode w (cmdWord 1#2 d) = .upd8 (unit8Field d) := by
  simp [decode]

theorem decode_cmdWord_updw (w : WideBits) (d : DWord) : decode w (cmdWord 2#2 d) = .updw (unitwField w d) := by
  simp [decode]

theorem decode_cmdWord_fin (w : WideBits) (d : DWord) : decode w (cmdWord 3#2 d) = .fin := by
  simp [decode]

theorem unitwField_toNat (w : WideBits) (d : DWord) : (unitwField w d).toNat = d.toNat % 2 ^ w.bits := by
  cases w <;> simp [unitwField, WideBits.bits]
  omega

theorem unitwField_setWidth (w : WideBits) (u : Word) : unitwField w (u.setWidth 64) = Machine.wideUnit w u := by
  apply BitVec.eq_of_toNat_eq
  have := u.isLt
  rw [unitwField_toNat, Machine.wideUnit_toNat, BitVec.toNat_setWidth, Nat.mod_eq_of_lt (a := u.toNat) (by omega)]

end Sys2Proof
end

