-- ==== Sys2Proof/Laws/Port.lean ====
section
/-! SUPPORT. What one clock edge can do, and how schedules, events and command sequences compose. -/

namespace Sys2Proof.Machine

/-- An edge with `rst = 1`, whatever is offered (rules R62, R70). -/
theorem step_rst {s : State} (h : (nextEdge s).rst = true) :
    step s = .next (setReady (nextEdge s).finishes (resetBlock (takeEdge s))) := by
  simp [step, clockEdge, edgeEffect, mapNext, readyAfter, h]

/-- An edge at which a command is accepted: the command's next state, with the surroundings moved on (rule R18). -/
theorem step_accept {s t : State} (h : accepts s.ready (nextEdge s) = true)
    (he : exec (decode s.cfg.wideBits (nextEdge s).word) s = .next t) :
    step s = .next { t with ready := (nextEdge s).finishes, edges := s.edges.tail, cycle := s.cycle + 1 } := by
  have hr : (nextEdge s).rst = false := by
    simp only [accepts, Bool.and_eq_true, Bool.not_eq_true'] at h
    exact h.1.1
  have h' := exec_surroundings he s.ready s.edges.tail (s.cycle + 1)
  have h'' : exec (decode s.cfg.wideBits (nextEdge s).word) (takeEdge s) = _ := h'
  simp [step, clockEdge, edgeEffect, mapNext, readyAfter, h, hr, h'', setReady]

/-- An edge with neither reset nor an accepted command (rule R18). -/
theorem step_quiet {s : State} (hr : (nextEdge s).rst = false) (h : accepts s.ready (nextEdge s) = false) :
    step s = .next (setReady (s.ready || (nextEdge s).finishes) (takeEdge s)) := by
  simp [step, clockEdge, edgeEffect, mapNext, readyAfter, h, hr]

/-- One edge on the block: at most one event, and the surroundings move on (rules R18, R62, R78). -/
theorem step_cases (s : State) :
    ∃ t u : State, step s = .next t ∧ runEvents (eventAt s.cfg.wideBits s.ready (nextEdge s)) s = .next u ∧
      t = { u with ready := readyAfter s.ready (nextEdge s), edges := s.edges.tail, cycle := s.cycle + 1 } := by
  cases hr : (nextEdge s).rst with
  | true =>
    refine ⟨_, resetBlock s, step_rst hr, ?_, ?_⟩
    · simp [eventAt, hr, runEvents, runEvent]
    · simp [readyAfter, hr, setReady, takeEdge, resetBlock, clearDone, writeAccs]
  | false =>
    cases ha : accepts s.ready (nextEdge s) with
    | true =>
      obtain ⟨a, b, d, he⟩ := exec_writes (decode s.cfg.wideBits (nextEdge s).word) s
      refine ⟨_, { s with h1 := a, h2 := b, done := d }, step_accept ha he, ?_, ?_⟩
      · simp [eventAt, hr, ha, runEvents, runEvent, he]
      · simp [readyAfter, hr, ha]
    | false =>
      refine ⟨_, s, step_quiet hr ha, ?_, ?_⟩
      · simp [eventAt, hr, ha, runEvents]
      · simp [readyAfter, hr, ha, setReady, takeEdge]

/-- An event writes the accumulators and the flag and nothing else. -/
theorem runEvent_writes (v : Event) (s : State) :
    ∃ (a b : Word) (d : Bool), runEvent v s = .next { s with h1 := a, h2 := b, done := d } := by
  cases v with
  | reset => exact ⟨_, _, _, rfl⟩
  | command i => exact exec_writes i s

@[simp] theorem runEvents_nil (s : State) : runEvents [] s = .next s := rfl

theorem runEvents_cons {v : Event} {vs : List Event} {s t : State} (h : runEvent v s = .next t) :
    runEvents (v :: vs) s = runEvents vs t := by
  simp [runEvents, h]

/-- Events one after another: the second list starts where the first ended. -/
theorem runEvents_append {vs ws : List Event} {s t : State} (h : runEvents vs s = .next t) :
    runEvents (vs ++ ws) s = runEvents ws t := by
  induction vs generalizing s with
  | nil => cases h; rfl
  | cons v vs ih =>
    obtain ⟨a, b, d, hv⟩ := runEvent_writes v s
    rw [runEvents_cons hv] at h
    rw [List.cons_append, runEvents_cons hv, ih h]

/-- Events write the accumulators and the flag and nothing else, and they always end in a next state (rule R60). -/
theorem runEvents_writes (vs : List Event) (s : State) :
    ∃ (a b : Word) (d : Bool), runEvents vs s = .next { s with h1 := a, h2 := b, done := d } := by
  induction vs generalizing s with
  | nil => exact ⟨s.h1, s.h2, s.done, rfl⟩
  | cons v vs ih =>
    obtain ⟨a, b, d, hv⟩ := runEvent_writes v s
    rw [runEvents_cons hv]
    exact ih _

@[simp] theorem runCommands_nil (s : State) : runCommands [] s = .next s := rfl

theorem runCommands_cons {i : Instr} {cs : List Instr} {s t : State} (h : exec i s = .next t) :
    runCommands (i :: cs) s = runCommands cs t :=
  runEvents_cons (v := .command i) h

theorem runCommands_append {cs ds : List Instr} {s t : State} (h : runCommands cs s = .next t) :
    runCommands (cs ++ ds) s = runCommands ds t := by
  rw [runCommands, List.map_append]
  exact runEvents_append h

@[simp] theorem core_run_zero (s : State) : Sys2Proof.core.run 0 s = .next s := rfl

/-- One more edge at the front of a run. -/
theorem core_run_succ {n : Nat} {s t : State} (h : step s = .next t) :
    Sys2Proof.core.run (n + 1) s = Sys2Proof.core.run n t := by
  have h' : Sys2Proof.core.step s = .next t := h
  simp [Host.Core.run, h']

end Sys2Proof.Machine
end

