-- ==== Sys2Proof/Laws/Hash.lean ====
section
/-! SUPPORT. The fold of the hash unit by unit. -/

namespace Sys2Proof.Machine

@[simp] theorem absorbAll_nil (k : DWord) : absorbAll k [] = seedPair k := rfl

theorem absorbAll_snoc (k : DWord) (c : List Word) (ch : Word) :
    absorbAll k (c ++ [ch]) = mix (absorbAll k c).1 (absorbAll k c).2 ch := by
  simp [absorbAll]

@[simp] theorem unitsOf_nil (w : WideBits) : unitsOf w [] = [] := rfl

/-- An update command absorbs the unit value it extracts (rules R41, R42). -/
theorem exec_update {i : Instr} {s : State} {ch : Word} (h : unitOf s.cfg.wideBits i = some ch) :
    exec i s = .next (absorb ch s) := by
  cases i <;> simp_all [unitOf, exec, execUpd8, execUpdw]

theorem isUpdate_iff_unitOf (w : WideBits) (i : Instr) : isUpdate i = (unitOf w i).isSome := by
  cases i <;> rfl

end Sys2Proof.Machine
end

