-- ==== Sys2Proof/Laws/PerInstr.lean ====
section
/-! SUPPORT. Facts stated command by command, one lemma per constructor of Instr. -/

/-- The row of the opcode map with a command's mnemonic covers the word the assembler writes (rule R31). -/
def Sys2Proof.Laws.OpcodeRow.Statement (i : Sys2Proof.Instr) : Prop :=
  ∃ r ∈ Sys2Proof.opcodeTable, r.mnemonic = i.mnemonic ∧ r.pattern = Sys2Proof.cmdWord (Sys2Proof.opField (Sys2Proof.encode i)) 0#64

namespace Sys2Proof.Laws.OpcodeRow

theorem init (seed : DWord) : Statement (.init seed) :=
  ⟨⟨"INIT", 0x00000000000000000#66, 0x30000000000000000#66⟩, by simp [opcodeTable], rfl, by
    simp only [encode, opField_cmdWord]; rfl⟩

theorem upd8 (u : Byte) : Statement (.upd8 u) :=
  ⟨⟨"UPD8", 0x10000000000000000#66, 0x30000000000000000#66⟩, by simp [opcodeTable], rfl, by
    simp only [encode, opField_cmdWord]; rfl⟩

theorem updw (u : Word) : Statement (.updw u) :=
  ⟨⟨"UPDW", 0x20000000000000000#66, 0x30000000000000000#66⟩, by simp [opcodeTable], rfl, by
    simp only [encode, opField_cmdWord]; rfl⟩

theorem fin : Statement .fin :=
  ⟨⟨"FIN", 0x30000000000000000#66, 0x30000000000000000#66⟩, by simp [opcodeTable], rfl, by
    simp only [encode, opField_cmdWord]; rfl⟩

end Sys2Proof.Laws.OpcodeRow
end

