-- ==== Sys2Proof/Tests/Slice0.lean ====
section
/-! SUPPORT. Small tests with values from spec/95_test_vectors.md and the worked examples of the rules, and a concrete
witness for the hypotheses of every statement. -/

namespace Sys2Proof.Tests

open Sys2Proof Sys2Proof.Machine

/-- The next state of an outcome, where there is one. -/
def nextOf : Host.Outcome State Fault Refusal → Option State
  | .next s => some s
  | .fault _ => none
  | .refused _ => none

/-- The architectural state of an outcome's next state. -/
def block (o : Host.Outcome State Fault Refusal) : Option (Word × Word × Bool) :=
  (nextOf o).map (fun s => (s.h1, s.h2, s.done))

/-- A ready block with the given architectural state. -/
def mk (h1 h2 : Word) (d : Bool) : State := { State.reset with h1 := h1, h2 := h2, done := d }

/-- A ready block with the given schedule. -/
def sched (es : List Edge) : State := { State.reset with edges := es }

/-- The edge that offers a command which takes one cycle. -/
def send (i : Instr) : Edge := offer (encode i)

/-! ## WellFormed: the term the check refuses -/

/-- R36: the unit of UPDW must be below 2^WIDE_BITS. -/
theorem test_wellFormed_refuses_wide_unit :
    Instr.wellFormed .w16 (.updw 0x1F600#32) = false ∧ Instr.wellFormed .w32 (.updw 0x1F600#32) = true := by decide

/-! ## Decoding: words written out from the formats of R30 and the table of 95_test_vectors.md 3.6 -/

theorem test_decode_init :
    decode .w32 0x0123456789ABCDEF0#66 = .init 0x123456789ABCDEF0#64 := by decide

theorem test_decode_upd8 :
    decode .w32 0x1FFFFFFFFFFFFFFE9#66 = .upd8 0xE9#8 ∧ decode .w16 0x10000000000000100#66 = .upd8 0x00#8 := by decide

theorem test_decode_updw :
    decode .w32 0x2FFFFFFFFFFFFD83D#66 = .updw 0xFFFFD83D#32 ∧ decode .w16 0x2FFFFFFFFFFFFD83D#66 = .updw 0xD83D#32 ∧
    decode .w16 0x2000000000001F600#66 = .updw 0xF600#32 := by decide

theorem test_decode_fin : decode .w32 0x3DEADBEEFDEADBEEF#66 = .fin := by decide

/-- Field by field from the format pictures of R30: `op`, ignored bits (here ones), operand. -/
theorem test_decode_formats :
    decode .w32 (0b00#2 ++ 0b0000000000000000000000000000000100000000000000000000000000000001#64) =
      .init 0x0000000100000001#64 ∧
    decode .w32 (0b01#2 ++ 0b11111111111111111111111111111111111111111111111111111111#56 ++ 0b01100001#8) =
      .upd8 0b01100001#8 ∧
    decode .w16 (0b10#2 ++ 0b111111111111111111111111111111111111111111111111#48 ++ 0b0010000010101100#16) =
      .updw 0x20AC#32 ∧
    decode .w32 (0b11#2 ++ 0b1111111111111111111111111111111111111111111111111111111111111111#64) = .fin := by decide

/-- R36: the words of `INIT 1`, `UPD8 'a'`, `UPDW 0x20AC` and `FIN`. -/
theorem test_encode_words :
    encode (.init 1#64) = 0x00000000000000001#66 ∧ encode (.upd8 0x61#8) = 0x10000000000000061#66 ∧
    encode (.updw 0x20AC#32) = 0x200000000000020AC#66 ∧ encode .fin = 0x30000000000000000#66 := by decide

theorem test_opcode_rows_disjoint :
    opcodeTable.Pairwise (fun r r' => r.pattern ≠ r'.pattern ∧ r.mask = r'.mask) := by decide

theorem test_decodeTableWord :
    decodeTableWord 72 0x10000000000000061 = some (.upd8 0x61#8) ∧
    decodeTableWord 66 0x30000000000000000 = some .fin := by decide

/-! ## The commands (95_test_vectors.md 3.1 to 3.3) -/

theorem test_init_one :
    block (exec (.init 0xFFFFFFFFFFFFFFFF#64) (mk 0x12345678#32 0x9ABCDEF0#32 true)) =
      some (0x21524110#32, 0xBE3931A8#32, false) := by decide

theorem test_init_h1_zero :
    block (exec (.init 0xDEADBEEF#64) (mk 0#32 0#32 true)) = some (0#32, 0x9F6B70B8#32, false) := by decide

theorem test_upd8_a :
    block (exec (.upd8 0x61#8) State.reset) = some (0xA9B3DE2E#32, 0xAC711D6E#32, false) := by decide

theorem test_upd8_clears_done :
    block (exec (.upd8 0x62#8) (mk 0x82C97901#32 0x501C2BA7#32 true)) =
      some (0xD5F1B873#32, 0xCC476DA9#32, false) := by decide

theorem test_updw_equals_h1 :
    block (exec (.updw 0xDEADBEEF#32) State.reset) = some (0#32, 0x5FA87B18#32, false) := by decide

theorem test_updw_narrow_block :
    block (exec (.updw 0x1F600#32) { State.reset with cfg := ⟨.w16⟩ }) =
      some (0x0AA1643F#32, 0xA963C6A3#32, false) := by decide

theorem test_fin_a :
    block (exec .fin (mk 0xA9B3DE2E#32 0xAC711D6E#32 false)) = some (0x82C97901#32, 0x501C2BA7#32, true) := by decide

theorem test_fin_twice :
    block (exec .fin (mk 0x82C97901#32 0x501C2BA7#32 true)) = some (0x82DF05E6#32, 0xB4071C1F#32, true) := by decide

/-! ## The functions (95_test_vectors.md 3.2 to 3.4) -/

theorem test_mix_largest : mix 0xFFFFFFFF#32 0xFFFFFFFF#32 0#32 = (0x61C8864F#32, 0xA0CA9B6B#32) := by decide

theorem test_mix_fixed : mix 0x80000000#32 0xC0000000#32 0#32 = (0x80000000#32, 0xC0000000#32) := by decide

theorem test_avalanche_shifts : avalanche 0x00010000#32 0x00002000#32 = (0x482F845E#32, 0x9A578C0A#32) := by decide

theorem test_avalanche_high_bit : avalanche 0x80000000#32 0x80000000#32 = (0x5DE18000#32, 0x36DDA57C#32) := by decide

theorem test_assemble_drops_bit_21 :
    assemble 0#32 0x00200000#32 = 0#64 ∧ assemble 1#32 1#32 = 0x0000000100000001#64 ∧
    assemble 0xFFFFFFFF#32 0xFFFFFFFF#32 = 0x001FFFFFFFFFFFFF#64 := by decide

/-- The known answers of the source (95_test_vectors.md section 1): "a", "b", "revenge", "Sequence", "Parallel". -/
theorem test_known_answers :
    hash8 [0x61#8] 0#64 = 7929297801672961#64 ∧
    hash8 [0x62#8] 0#64 = 8684336938537663#64 ∧
    hash8 [0x72#8, 0x65#8, 0x76#8, 0x65#8, 0x6E#8, 0x67#8, 0x65#8] 0#64 = 4051478007546757#64 ∧
    hash8 [0x53#8, 0x65#8, 0x71#8, 0x75#8, 0x65#8, 0x6E#8, 0x63#8, 0x65#8] 0#64 = 7756856452616112#64 ∧
    hash8 [0x50#8, 0x61#8, 0x72#8, 0x61#8, 0x6C#8, 0x6C#8, 0x65#8, 0x6C#8] 0#64 = 4521263870987759#64 := by decide

/-- The known answers of the source for "revenue" with seeds 0 to 3, through the wide variant. -/
theorem test_known_answers_seeded :
    [0#64, 1#64, 2#64, 3#64].map
      (hashWide .w16 [0x72#16, 0x65#16, 0x76#16, 0x65#16, 0x6E#16, 0x75#16, 0x65#16]) =
      [8309097637345594#64, 8697026808958300#64, 2021074995066978#64, 4747903550515895#64] := by decide

/-- Wide and non-ASCII vectors (95_test_vectors.md section 4). -/
theorem test_wide_answers :
    hashWide .w32 [0x1F600#32] 0#64 = 184983221247852#64 ∧
    hashWide .w16 [0xD83D#16, 0xDE00#16] 0#64 = 4725715722941614#64 ∧
    hash8 [0xE9#8] 0#64 = 8722994053064405#64 := by decide

/-! ## The command port -/

/-- 95_test_vectors.md 3.7: with `rst = 1` an offered command is dropped. -/
theorem test_reset_drops_command :
    block (step { mk 1#32 2#32 true with edges := [{ send (.upd8 0x61#8) with rst := true }] }) =
      some (0xDEADBEEF#32, 0x41C6CE57#32, false) := by decide

/-- R18: `cmd_ready = 0` at the edge, so nothing is accepted. -/
theorem test_busy_block_accepts_nothing :
    block (step { mk 1#32 2#32 true with ready := false, edges := [send .fin] }) = some (1#32, 2#32, true) := by decide

/-- R18, R78: an accepted command; the block is still working after the edge. -/
theorem test_accepted_command :
    nextOf (step (sched [{ send (.upd8 0x61#8) with finishes := false }])) =
      some { mk 0xA9B3DE2E#32 0xAC711D6E#32 false with ready := false, cycle := 1 } := by decide

theorem test_withFetchWord :
    block (step (State.reset.withFetchWord 72 0x20000000000000061)) =
      some (0xA9B3DE2E#32, 0xAC711D6E#32, false) := by decide

/-! ## The textual form (R36, R37) -/

theorem test_asm_commands :
    asmLine .w32 ['U', 'P', 'D', '8', ' ', quoteChar, 'a', quoteChar, ' ', ';', 'x'] = some [.upd8 0x61#8] ∧
    asmLine .w32 ['I', 'N', 'I', 'T', ' ', '1', '2'] = some [.init 12#64] ∧
    asmLine .w16 ['U', 'P', 'D', 'W', ' ', '0', 'x', '1', 'F', '6', '0', '0'] = none ∧
    asmLine .w16 [' ', ';', ' ', 'c'] = some [] ∧
    asmLine .w32 ['U', 'P', 'D', '8', ' ', '2', '5', '6'] = none ∧
    asmLine .w32 ['U', 'P', 'D', '8', ' ', '0', 'x', 'f', 'F'] = some [.upd8 0xFF#8] := by decide

theorem test_asm_hash8 :
    asmLine .w32 ['H', 'A', 'S', 'H', '8', ' ', stringChar, 'a', 'b', stringChar, ',', ' ', '1'] =
      some [.init 1#64, .upd8 0x61#8, .upd8 0x62#8, .fin] ∧
    asmLine .w32 ['H', 'A', 'S', 'H', '8', ' ', '[', '0', 'x', '7', '2', ',', ' ', '1', ']'] =
      some [.init 0#64, .upd8 0x72#8, .upd8 1#8, .fin] := by decide

theorem test_wordText : wordText 0x10000000000000061#66 =
    ['0', 'x', '1', '0', '0', '0', '0', '0', '0', '0', '0', '0', '0', '0', '0', '0', '0', '6', '1'] := by decide

/-! ## Witnesses: a concrete state and operands for the hypotheses of each statement -/

theorem witness_ResetStateIsInitZero :
    State.reset.h1 = State.reset.h1 ∧ State.reset.h2 = State.reset.h2 ∧ State.reset.done = State.reset.done ∧
    [Instr.upd8 0x61#8, Instr.updw 0x20AC#32].all isUpdate = true := by decide

theorem witness_ResetWinsOverCommand :
    (nextEdge (sched [{ send (.upd8 0x61#8) with rst := true }])).rst = true := by decide

theorem witness_StepRunsDecodedCommand :
    Instr.wellFormed (sched [send (.updw 0x1F600#32)]).cfg.wideBits (.updw 0x1F600#32) = true ∧
    (nextEdge (sched [send (.updw 0x1F600#32)])).rst = false ∧
    (nextEdge (sched [send (.updw 0x1F600#32)])).cmdValid = true ∧
    (sched [send (.updw 0x1F600#32)]).ready = true ∧
    cmdWord (nextEdge (sched [send (.updw 0x1F600#32)])).cmdOp (nextEdge (sched [send (.updw 0x1F600#32)])).cmdData =
      encode (.updw 0x1F600#32) ∧
    (nextOf (exec (.updw 0x1F600#32) (sched [send (.updw 0x1F600#32)]))).isSome = true := by decide

theorem witness_StepRunsDecodedCommand_placed :
    Instr.wellFormed { State.reset with ready := false }.cfg.wideBits (.updw 0xFFFFFFFF#32) = true ∧
    (nextOf (exec (.updw 0xFFFFFFFF#32) { State.reset with ready := false })).isSome = true := by decide

theorem witness_PortAcceptance_accepted :
    (nextEdge (sched [send .fin])).rst = false ∧ (nextEdge (sched [send .fin])).cmdValid = true ∧
    (sched [send .fin]).ready = true ∧
    (nextOf (exec (decode .w32 (cmdWord (nextEdge (sched [send .fin])).cmdOp (nextEdge (sched [send .fin])).cmdData))
      (sched [send .fin]))).isSome = true := by decide

theorem witness_PortAcceptance_not_accepted :
    ((nextEdge State.reset).rst = false ∧ (nextEdge State.reset).cmdValid = false) ∧
    ((nextEdge { sched [send .fin] with ready := false }).rst = false ∧
      { sched [send .fin] with ready := false }.ready = false) := by decide

theorem witness_Handshake_withdrawn :
    Edge.idle.rst = false ∧ (send .fin).rst = false ∧ Edge.idle.finishes = (send .fin).finishes ∧
    { State.reset with ready := false }.ready = false := by decide

theorem witness_Handshake_falls :
    (sched [{ send .fin with finishes := false }]).ready = true ∧
    (nextOf (step (sched [{ send .fin with finishes := false }]))).map State.ready = some false := by decide

theorem witness_Handshake_executed_once :
    events .w32 true (upcoming 3 (sched [{ send (.upd8 1#8) with finishes := false }, send .fin, Edge.idle])) =
      [.command (.upd8 1#8)] := by decide

theorem witness_DecoderFollowsOpcodeMap :
    0x0FFFFFFFFFFFFFFFF#66 &&& 0x30000000000000000#66 = 0x00000000000000000#66 ∧
    0x1FFFFFFFFFFFFFFFF#66 &&& 0x30000000000000000#66 = 0x10000000000000000#66 ∧
    0x2FFFFFFFFFFFFFFFF#66 &&& 0x30000000000000000#66 = 0x20000000000000000#66 ∧
    0x3FFFFFFFFFFFFFFFF#66 &&& 0x30000000000000000#66 = 0x30000000000000000#66 := by decide

theorem witness_OperandAssembly :
    opField 0x0FFFFFFFFFFFFFFFF#66 = 0#2 ∧ opField 0x1FFFFFFFFFFFFFFFF#66 = 1#2 ∧
    opField 0x20000000000000000#66 = 2#2 ∧ opField 0x3FFFFFFFFFFFFFFFF#66 = 3#2 := by decide

theorem witness_IgnoredBitsHaveNoEffect :
    opField 0x1FFFFFFFFFFFFFF61#66 = opField 0x10000000000000061#66 ∧
    dataField 0x1FFFFFFFFFFFFFF61#66 &&& operandMask .w32 (opField 0x1FFFFFFFFFFFFFF61#66) =
      dataField 0x10000000000000061#66 &&& operandMask .w32 (opField 0x1FFFFFFFFFFFFFF61#66) ∧
    decode .w32 (cmdWord 0#2 7#64) = decode .w32 (cmdWord 0#2 7#64) := by decide

/-- For DecodeEncodeAgree, IgnoredBitsHaveNoEffect and AssemblerRoundTrip: the largest unit of both widths. -/
theorem witness_wellFormed :
    Instr.wellFormed .w16 (.updw 0xFFFF#32) = true ∧ Instr.wellFormed .w32 (.updw 0xFFFFFFFF#32) = true ∧
    Instr.wellFormed .w16 .fin = true ∧ [Instr.upd8 0xFF#8, Instr.updw 0xFFFF#32].all (Instr.wellFormed .w16) = true := by
  decide

theorem witness_ArithmeticLaws :
    (31 ≤ 31 ∧ 32 - 31 ≤ 1 ∧ 1 < 32) ∧ mul1 ∈ [mul1, mul2, fmulA, fmulB] ∧ 1 ≤ 13 := by decide

theorem witness_AvalancheFunction : (avalanche 0#32 0#32).1 = 0#32 ∧ (avalanche 1#32 0#32).1 = 0x85EBCA6B#32 := by decide

theorem witness_DigestRange : 2 ^ 53 - 1 < 2 ^ 53 ∧ 0 < 2 ^ 53 := by decide

theorem witness_DigestIsWiring :
    (mk 5#32 0x00200001#32 true).h1 = (mk 5#32 1#32 false).h1 ∧
    (mk 5#32 0x00200001#32 true).h2.extractLsb' 0 21 = (mk 5#32 1#32 false).h2.extractLsb' 0 21 := by decide

theorem witness_RunIsFoldOfAcceptedCommands :
    (nextOf (runCommands [.init 1#64] State.reset)).isSome = true ∧
    (nextOf (runCommands [.fin] (mk 0xDEADBEEE#32 0x41C6CE56#32 false))).isSome = true := by decide

theorem witness_SameStateSameBehaviour :
    (sched [send .fin]).ready = { sched [send .fin] with cycle := 9 }.ready ∧
    (sched [send .fin]).edges = { sched [send .fin] with cycle := 9 }.edges ∧
    (sched [send .fin]).cfg = { sched [send .fin] with cycle := 9 }.cfg ∧
    (sched [send .fin]).h1 = { sched [send .fin] with cycle := 9 }.h1 ∧
    (sched [send .fin]).h2 = { sched [send .fin] with cycle := 9 }.h2 ∧
    (sched [send .fin]).done = { sched [send .fin] with cycle := 9 }.done := by decide

theorem witness_InitForgetsTheRestDoNot :
    (nextOf (exec (.init 1#64) State.reset)).isSome = true ∧ isUpdate (.upd8 0#8) = true ∧
    isUpdate (.updw 0#32) = true := by decide

/-- For TransactionComputesHash, EntryPoints and HashIsDeterministic: updates of both kinds. -/
theorem witness_updates : [Instr.upd8 0x41#8, Instr.updw 0x263A#32, Instr.upd8 0x42#8].all isUpdate = true := by decide

/-- The first edge's command belongs to what came before, the next two are the transaction. -/
theorem witness_HashIsDeterministic :
    events .w32 true (upcoming 4 (sched [send (.upd8 1#8), send (.init 5#64), Edge.idle, send .fin])) =
      [.command (.upd8 1#8)] ++ (transaction 5#64 []).map .command := by decide

theorem witness_TransactionCycleCount :
    Latencies.legal ⟨1, 3, 2⟩ = true ∧ [Instr.upd8 0x61#8].all isUpdate = true ∧
    [(0, Instr.init 0#64), (2, .upd8 0x61#8), (1, .fin)].map Prod.snd = transaction 0#64 [.upd8 0x61#8] ∧
    (sched (commandSchedule ⟨1, 3, 2⟩ (send .fin) [(0, .init 0#64), (2, .upd8 0x61#8), (1, .fin)])).ready = true ∧
    (commandSchedule ⟨1, 3, 2⟩ (send .fin) [(0, .init 0#64), (2, .upd8 0x61#8), (1, .fin)]).length =
      1 + 1 * 3 + 2 + [(0, Instr.init 0#64), (2, .upd8 0x61#8), (1, .fin)].foldl (fun n p => n + p.1) 0 := by decide

theorem witness_cfg :
    State.reset.cfg.wideBits = .w32 ∧ { State.reset with cfg := ⟨.w16⟩ }.cfg.wideBits = .w16 := by decide

theorem witness_SeedSensitivity :
    (0x100000001#64).toNat % 2 ^ 32 = (1#64).toNat % 2 ^ 32 ∧ (1#64).toNat % 2 ^ 32 ≠ (2#64).toNat % 2 ^ 32 := by decide

/-- A state of a safe run whose next edge is an accepted FIN. -/
theorem witness_SafeRunIsKept :
    SafeRun (sched [send .fin, send (.init 1#64)]) ∧
    (nextOf (step (sched [send .fin, send (.init 1#64)]))).isSome = true :=
  ⟨⟨⟨0#64, [], by decide⟩, by decide⟩, by decide⟩

theorem witness_SafeRunAtReset :
    keepsForm true (events Config.default.wideBits State.reset.ready [send (.upd8 1#8), send .fin]) = true := by decide

theorem witness_ResultOnShowIsAHash :
    SafeRun (mk 0x1AEE8D83#32 0x488BDCB8#32 true) ∧ resultOnShow (mk 0x1AEE8D83#32 0x488BDCB8#32 true) = true :=
  ⟨⟨⟨0#64, [], by decide⟩, by decide⟩, by decide⟩

/-- The last number inside and the first outside of each range, in different forms, and a character literal. -/
theorem witness_AssemblerRefusesOutOfRange :
    (Numeral.dec ['2', '5', '5']).legal = true ∧ (Numeral.dec ['2', '5', '5']).value = 2 ^ 8 - 1 ∧
    (Numeral.hex ['1', '0', '0']).legal = true ∧ (Numeral.hex ['1', '0', '0']).value = 2 ^ 8 ∧
    (Numeral.dec ['6', '5', '5', '3', '5']).value = 2 ^ WideBits.w16.bits - 1 ∧
    (Numeral.dec ['6', '5', '5', '3', '6']).value = 2 ^ WideBits.w16.bits ∧
    (Numeral.hex ['f', 'F', 'f', 'F', 'f', 'F', 'f', 'F']).value = 2 ^ WideBits.w32.bits - 1 ∧
    (Numeral.hex ['1', '0', '0', '0', '0', '0', '0', '0', '0']).value = 2 ^ WideBits.w32.bits ∧
    (Numeral.hex (List.replicate 16 'F')).legal = true ∧ (Numeral.hex (List.replicate 16 'F')).value = 2 ^ 64 - 1 ∧
    (Numeral.hex ('1' :: List.replicate 16 '0')).legal = true ∧
    (Numeral.hex ('1' :: List.replicate 16 '0')).value = 2 ^ 64 ∧
    [Numeral.char 'a', Numeral.dec ['2', '5', '6']].all Numeral.legal = true ∧ (Numeral.char 'a').value = 97 := by decide

theorem witness_PseudoInstructionsExpand :
    ['a', ' ', ';'].all isPrintable = true ∧ stringChar ∉ ['a', ' ', ';'] ∧
    [Numeral.char 'a', Numeral.dec ['2', '5', '5']].all Numeral.legal = true ∧
    (none : Option Numeral).all Numeral.legal = true ∧ seedValue none = 0 ∧
    (some (Numeral.hex (List.replicate 16 'F'))).all Numeral.legal = true ∧
    seedValue (some (Numeral.hex (List.replicate 16 'F'))) = 2 ^ 64 - 1 ∧
    (some (Numeral.hex ('1' :: List.replicate 16 '0'))).all Numeral.legal = true ∧
    seedValue (some (Numeral.hex ('1' :: List.replicate 16 '0'))) = 2 ^ 64 := by decide

end Sys2Proof.Tests
end

section
/-! PROOFS of 00_scope.md: the laws of the logical shifts and of the odd multipliers (rule R7 (d), (e)). The laws of
`low32` (rule R7 (a) to (c)) are in Laws/Ops.lean. -/

namespace Sys2Proof.Machine

/-- The top `k` bits of `h` stay as they are: the shifted copy is zero there (rule R7 (d)). -/
theorem xorShift_getLsbD_of_top (h : Word) {k j : Nat} (hj : 32 ≤ k + j) :
    (xorShift h k).getLsbD j = h.getLsbD j := by
  rw [xorShift, BitVec.getLsbD_xor, BitVec.getLsbD_ushiftRight, BitVec.getLsbD_of_ge h _ hj, Bool.xor_false]

theorem xorShift_xor (v w : Word) (k : Nat) : xorShift (v ^^^ w) k = xorShift v k ^^^ xorShift w k := by
  simp only [xorShift, BitVec.ushiftRight_xor_distrib]
  ac_rfl

/-- A word sent to 0 is its own shift `d / 2^k`, and for `k ≥ 1` that is less than `d` unless `d` is 0. -/
theorem eq_zero_of_xorShift_eq_zero {d : Word} {k : Nat} (hk : 1 ≤ k) (h : xorShift d k = 0#32) : d = 0#32 := by
  have hshift : d = d >>> k := BitVec.xor_eq_zero_iff.mp h
  have hdiv : d.toNat = d.toNat / 2 ^ k := by
    rw [← Nat.shiftRight_eq_div_pow, ← BitVec.toNat_ushiftRight, ← hshift]
  apply BitVec.eq_of_toNat_eq
  by_contra hne
  have hlt : d.toNat / 2 ^ k < d.toNat := Nat.div_lt_self (Nat.pos_of_ne_zero hne) (Nat.one_lt_two_pow (by omega))
  omega

/-- The xorshift is linear over XOR, so words with equal image differ by a word that is sent to 0. -/
theorem xorShift_injective {k : Nat} (hk : 1 ≤ k) : Function.Injective (fun v : Word => xorShift v k) := by
  intro v w (hvw : xorShift v k = xorShift w k)
  have hzero : xorShift (v ^^^ w) k = 0#32 := by rw [xorShift_xor, hvw, BitVec.xor_self]
  exact BitVec.xor_eq_zero_iff.mp (eq_zero_of_xorShift_eq_zero hk hzero)

/-- `v ^ (v >> k)` is a bijection of the 32-bit words for `k ≥ 1` (rule R7 (e)). -/
theorem xorShift_bijective {k : Nat} (hk : 1 ≤ k) : Function.Bijective (fun v : Word => xorShift v k) :=
  Finite.injective_iff_bijective.mp (xorShift_injective hk)

/-- An odd factor has no common divisor with `2^32`, so it cancels in a congruence. -/
theorem low32_mul_injective {c : Nat} (hc : Odd c) : Function.Injective (fun v : Word => low32 (c * v.toNat)) := by
  intro v w hvw
  have hmod : c * v.toNat ≡ c * w.toNat [MOD 2 ^ 32] := by
    simpa only [Nat.ModEq, low32_toNat] using congrArg BitVec.toNat hvw
  have hcop : Nat.gcd (2 ^ 32) c = 1 := Nat.Coprime.pow_left 32 (Nat.coprime_two_left.mpr hc)
  exact BitVec.eq_of_toNat_eq ((hmod.cancel_left_of_coprime hcop).eq_of_lt_of_lt v.isLt w.isLt)

/-- Multiplication by an odd constant modulo `2^32` is a bijection of the 32-bit words (rule R7 (e)). -/
theorem low32_mul_bijective {c : Nat} (hc : Odd c) : Function.Bijective (fun v : Word => low32 (c * v.toNat)) :=
  Finite.injective_iff_bijective.mp (low32_mul_injective hc)

/-- The four multipliers of rule R3 are odd. -/
theorem multipliers_odd : ∀ c ∈ [mul1, mul2, fmulA, fmulB], Odd c := by decide

end Sys2Proof.Machine
end

section
/-! SETTLED: the statements of 00_scope.md. -/

namespace Sys2Proof.Proofs
open Sys2Proof Sys2Proof.Machine

/-- Settles O18: laws (a) to (c) are those of `low32`; each map of (e) is injective on a finite type, the xorshift because
only 0 is sent to 0, the product because an odd factor cancels modulo `2^32`. -/
theorem arithmeticLaws : Obligations.ArithmeticLaws := by
  refine ⟨low32_mul_low32, low32_xor, low32_mul, fun h k hk => ⟨?_, fun j hj _ => ?_⟩,
    fun c hc => low32_mul_bijective (multipliers_odd c hc), fun k hk => xorShift_bijective hk⟩
  · exact BitVec.toNat_ushiftRight_lt h k (by omega)
  · exact xorShift_getLsbD_of_top h (by omega)

/-- Settles O17: `low32` is the 32-bit word of a number, whose value is the residue. -/
theorem low32IsModulo : Obligations.Low32IsModulo := low32_toNat

end Sys2Proof.Proofs
end

section
/-! PROOFS of 10_state.md: a run of updates as one fold over its units, and what events and clock edges do not read
(rules R10, R16, R17). -/

namespace Sys2Proof.Machine

/-! ## INIT, FIN and updates as state operations -/

@[simp] theorem exec_init (seed : DWord) (s : State) :
    exec (.init seed) s = .next (clearDone (writeAccs (seedPair seed) s)) := rfl

@[simp] theorem exec_fin (s : State) : exec .fin s = .next (setDone (writeAccs (avalanche s.h1 s.h2) s)) := rfl

/-- Seed 0 leaves the start constants as they are, and those are the reset values (rules R17, R40). -/
theorem seedPair_zero : seedPair 0#64 = (State.reset.h1, State.reset.h2) := by decide

/-- A sequence of code units absorbed one after another. -/
def absorbUnits (c : List Word) (s : State) : State := c.foldl (fun t ch => absorb ch t) s

@[simp] theorem absorbUnits_nil (s : State) : absorbUnits [] s = s := rfl

@[simp] theorem absorbUnits_cons (ch : Word) (c : List Word) (s : State) :
    absorbUnits (ch :: c) s = absorbUnits c (absorb ch s) := rfl

/-- The accumulators of `absorbUnits` are the fold of `mix`, from any state. -/
theorem absorbUnits_accs (c : List Word) (s : State) :
    ((absorbUnits c s).h1, (absorbUnits c s).h2) = c.foldl (fun p ch => mix p.1 p.2 ch) (s.h1, s.h2) := by
  induction c generalizing s with
  | nil => rfl
  | cons ch c ih => exact ih (absorb ch s)

/-- From the accumulators of a seed, absorbing gives the running pair of rule R48. -/
theorem absorbUnits_accs_of_seedPair {k : DWord} {s : State} (h : (s.h1, s.h2) = seedPair k) (c : List Word) :
    ((absorbUnits c s).h1, (absorbUnits c s).h2) = absorbAll k c := by
  rw [absorbUnits_accs, h, absorbAll]

/-- Update commands absorb the units they extract, in order (rules R41, R42, R47). -/
theorem runCommands_updates {us : List Instr} (s : State) (hus : us.all isUpdate = true) :
    runCommands us s = .next (absorbUnits (unitsOf s.cfg.wideBits us) s) := by
  induction us generalizing s with
  | nil => rfl
  | cons i us ih =>
    obtain ⟨hi, hus⟩ : isUpdate i = true ∧ us.all isUpdate = true := by simpa using hus
    obtain ⟨ch, hch⟩ := Option.isSome_iff_exists.mp (isUpdate_iff_unitOf s.cfg.wideBits i ▸ hi)
    rw [runCommands_cons (exec_update hch), ih _ hus, absorb_cfg, unitsOf, unitsOf, List.filterMap_cons_some hch,
      absorbUnits_cons]

/-- A transaction without its INIT: FIN finalises what the updates have absorbed (rule R47). -/
theorem runCommands_updates_fin {us : List Instr} (s : State) (hus : us.all isUpdate = true) :
    ∃ t : State, runCommands (us ++ [.fin]) s = .next t ∧ t.done = true ∧
      (t.h1, t.h2) = avalanche (absorbUnits (unitsOf s.cfg.wideBits us) s).h1
        (absorbUnits (unitsOf s.cfg.wideBits us) s).h2 :=
  ⟨_, by rw [runCommands_append (runCommands_updates s hus), runCommands_cons (exec_fin _), runCommands_nil], rfl, rfl⟩

/-- From the accumulators of a seed, updates and FIN put the hash of the units on `digest` (rules R47, R48). -/
theorem runCommands_updates_fin_hash {k : DWord} {s : State} (h : (s.h1, s.h2) = seedPair k) {us : List Instr}
    (hus : us.all isUpdate = true) :
    ∃ t : State, runCommands (us ++ [.fin]) s = .next t ∧ t.done = true ∧
      digest t = cyrb53 (unitsOf s.cfg.wideBits us) k := by
  obtain ⟨t, hrun, hdone, haccs⟩ := runCommands_updates_fin s hus
  have hfinal : (t.h1, t.h2) = finalPair k (unitsOf s.cfg.wideBits us) := by
    rw [haccs, finalPair, ← absorbUnits_accs_of_seedPair h]
  exact ⟨t, hrun, hdone, by rw [digest, cyrb53, ← hfinal]⟩

/-! ## What events and clock edges do not read -/

/-- Two states with the same block and the same build parameters differ in their surroundings only. -/
theorem State.eq_withSurroundings {s s' : State} (h1 : s.h1 = s'.h1) (h2 : s.h2 = s'.h2) (hd : s.done = s'.done)
    (hc : s.cfg = s'.cfg) : s' = { s with ready := s'.ready, edges := s'.edges, cycle := s'.cycle } :=
  State.eq_of_fields h1.symm h2.symm hd.symm rfl hc.symm rfl rfl

/-- An event neither reads nor writes what surrounds the block. -/
theorem runEvent_surroundings {v : Event} {s t : State} (h : runEvent v s = .next t) (r : Bool) (es : List Edge)
    (n : Nat) : runEvent v { s with ready := r, edges := es, cycle := n } =
      .next { t with ready := r, edges := es, cycle := n } := by
  cases v with
  | reset => cases h; rfl
  | command i => exact exec_surroundings h r es n

theorem runEvents_surroundings {vs : List Event} {s t : State} (h : runEvents vs s = .next t) (r : Bool)
    (es : List Edge) (n : Nat) : runEvents vs { s with ready := r, edges := es, cycle := n } =
      .next { t with ready := r, edges := es, cycle := n } := by
  induction vs generalizing s with
  | nil => cases h; rfl
  | cons v vs ih =>
    obtain ⟨a, b, d, hv⟩ := runEvent_writes v s
    rw [runEvents_cons hv] at h
    rw [runEvents_cons (runEvent_surroundings hv r es n), ih h]

/-- A clock edge does not read the count of edges: its event does not, and `cmd_ready` and the schedule move on by
themselves. -/
theorem step_withCycle {s t : State} (h : step s = .next t) (m : Nat) :
    step { s with cycle := m } = .next { t with cycle := m + 1 } := by
  obtain ⟨t₁, u, hstep, hevent, rfl⟩ := step_cases s
  obtain ⟨t₂, u', hstep', hevent', rfl⟩ := step_cases { s with cycle := m }
  have hu : u' = { u with ready := s.ready, edges := s.edges, cycle := m } :=
    Host.Outcome.next.inj (hevent'.symm.trans (runEvents_surroundings hevent s.ready s.edges m))
  obtain rfl := Host.Outcome.next.inj (hstep.symm.trans h)
  rw [hstep', hu]
  rfl

theorem core_run_withCycle {n : Nat} {s t : State} (h : Sys2Proof.core.run n s = .next t) (m : Nat) :
    Sys2Proof.core.run n { s with cycle := m } = .next { t with cycle := m + n } := by
  induction n generalizing s m with
  | zero => cases h; rfl
  | succ n ih =>
    obtain ⟨u, -, hstep, -, -⟩ := step_cases s
    rw [core_run_succ hstep] at h
    rw [core_run_succ (step_withCycle hstep m), ih h, Nat.add_right_comm, Nat.add_assoc]

/-- Any number of clock edges ends in a next state (rule R60). -/
theorem core_run_next (n : Nat) (s : State) : ∃ t : State, Sys2Proof.core.run n s = .next t := by
  induction n generalizing s with
  | zero => exact ⟨s, rfl⟩
  | succ n ih =>
    obtain ⟨u, -, hstep, -, -⟩ := step_cases s
    obtain ⟨t, hrun⟩ := ih u
    exact ⟨t, (core_run_succ hstep).trans hrun⟩

end Sys2Proof.Machine
end

section
/-! SETTLED: the statements of 10_state.md. -/

namespace Sys2Proof.Proofs
open Sys2Proof Sys2Proof.Machine

/-- Settles O1: seed 0 leaves the start constants, so a state with the reset values has the accumulators of seed 0, and
updates with FIN fold their units into them. -/
theorem resetStateIsInitZero : Obligations.ResetStateIsInitZero := by
  refine ⟨by decide, fun s => ?_, fun s us h1 h2 _ hus => ?_⟩
  · rw [exec_init, seedPair_zero]
    rfl
  · have hseed : (s.h1, s.h2) = seedPair 0#64 := by rw [h1, h2, seedPair_zero]
    exact runCommands_updates_fin_hash hseed hus

/-- Settles O28: the second state is the first in other surroundings, which no command reads; with the same `cmd_ready`
and schedule only the count of edges is left to differ, which no edge reads. -/
theorem sameStateSameBehaviour : Obligations.SameStateSameBehaviour := by
  refine ⟨fun cs s s' h1 h2 hd hc => ?_, fun n s s' h1 h2 hd hc hr he => ?_⟩
  · obtain ⟨a, b, d, hrun⟩ := runEvents_writes (cs.map .command) s
    have hrun' := runEvents_surroundings hrun s'.ready s'.edges s'.cycle
    rw [← State.eq_withSurroundings h1 h2 hd hc] at hrun'
    exact ⟨_, _, hrun, hrun', rfl, rfl, rfl⟩
  · obtain ⟨t, hrun⟩ := core_run_next n s
    have hrun' := core_run_withCycle hrun s'.cycle
    have hs' : s' = { s with cycle := s'.cycle } :=
      State.eq_of_fields h1.symm h2.symm hd.symm hr.symm hc.symm he.symm rfl
    rw [← hs'] at hrun'
    exact ⟨t, _, hrun, hrun', rfl, rfl, rfl, rfl⟩

end Sys2Proof.Proofs
end

section
/-! PROOFS of 30_encoding.md: the fields of every command word, what the decoder reads of them for each `op`, and what
the operand masks keep (rules R30 to R33). -/

namespace Sys2Proof

/-! ## The decoder by `op` -/

theorem op_cases : ∀ op : BitVec 2, op = 0#2 ∨ op = 1#2 ∨ op = 2#2 ∨ op = 3#2 := by decide

theorem decode_of_op_init {cw : CmdWord} (h : opField cw = 0#2) (w : WideBits) :
    decode w cw = .init (dataField cw) := by
  rw [← decode_cmdWord_init w, ← h, cmdWord_fields]

theorem decode_of_op_upd8 {cw : CmdWord} (h : opField cw = 1#2) (w : WideBits) :
    decode w cw = .upd8 (unit8Field (dataField cw)) := by
  rw [← decode_cmdWord_upd8 w, ← h, cmdWord_fields]

theorem decode_of_op_updw {cw : CmdWord} (h : opField cw = 2#2) (w : WideBits) :
    decode w cw = .updw (unitwField w (dataField cw)) := by
  rw [← decode_cmdWord_updw w, ← h, cmdWord_fields]

theorem decode_of_op_fin {cw : CmdWord} (h : opField cw = 3#2) (w : WideBits) : decode w cw = .fin := by
  rw [← decode_cmdWord_fin w (dataField cw), ← h, cmdWord_fields]

/-- Assembling a decoded command gives a word of the same format. -/
theorem opField_encode_decode (w : WideBits) (cw : CmdWord) : opField (encode (decode w cw)) = opField cw := by
  rcases op_cases (opField cw) with h | h | h | h
  · rw [decode_of_op_init h, encode, opField_cmdWord, h]
  · rw [decode_of_op_upd8 h, encode, opField_cmdWord, h]
  · rw [decode_of_op_updw h, encode, opField_cmdWord, h]
  · rw [decode_of_op_fin h, encode, opField_cmdWord, h]

/-! ## The opcode map -/

theorem cmdWord_and (op op' : BitVec 2) (d d' : DWord) :
    cmdWord op d &&& cmdWord op' d' = cmdWord (op &&& op') (d &&& d') :=
  BitVec.and_append

/-- The mask of the opcode map keeps the field `op` and nothing else. -/
theorem and_opMask (cw : CmdWord) : cw &&& 0x30000000000000000#66 = cmdWord (opField cw) 0#64 := by
  have hones : ∀ op : BitVec 2, op &&& 3#2 = op := by decide
  have hmask : 0x30000000000000000#66 = cmdWord 3#2 0#64 := by decide
  calc cw &&& 0x30000000000000000#66
    _ = cmdWord (opField cw) (dataField cw) &&& cmdWord 3#2 0#64 := by rw [cmdWord_fields, hmask]
    _ = cmdWord (opField cw) 0#64 := by rw [cmdWord_and, hones, BitVec.and_zero]

/-- Matching the masked word against the pattern of `op` tests the field `op`. -/
theorem and_opMask_eq_iff (cw : CmdWord) (op : BitVec 2) :
    cw &&& 0x30000000000000000#66 = cmdWord op 0#64 ↔ opField cw = op := by
  rw [and_opMask]
  refine ⟨fun h => ?_, fun h => by rw [h]⟩
  simpa only [opField_cmdWord] using congrArg opField h

theorem opcodeTable_mask : ∀ r ∈ opcodeTable, r.mask = 0x30000000000000000#66 := by decide

theorem opcodeTable_pattern_inj : ∀ r ∈ opcodeTable, ∀ r' ∈ opcodeTable, r'.pattern = r.pattern → r' = r := by decide

/-- A row of the map covers a word exactly when its pattern is the word's `op`. -/
theorem covers_iff {r : OpcodeRow} (hr : r ∈ opcodeTable) (cw : CmdWord) :
    r.covers cw = true ↔ r.pattern = cmdWord (opField cw) 0#64 := by
  rw [OpcodeRow.covers, decide_eq_true_iff, opcodeTable_mask r hr, and_opMask, eq_comm]

/-- Every command has its row in the map (rule R31). -/
theorem exists_opcodeRow (i : Instr) : Laws.OpcodeRow.Statement i := by
  cases i with
  | init seed => exact Laws.OpcodeRow.init seed
  | upd8 u => exact Laws.OpcodeRow.upd8 u
  | updw u => exact Laws.OpcodeRow.updw u
  | fin => exact Laws.OpcodeRow.fin

/-! ## The operands as numbers -/

theorem dataField_toNat (cw : CmdWord) : (dataField cw).toNat = cw.toNat % 2 ^ 64 :=
  BitVec.extractLsb'_toNat 0 64 cw

theorem unit8Field_toNat (d : DWord) : (unit8Field d).toNat = d.toNat % 2 ^ 8 :=
  BitVec.extractLsb'_toNat 0 8 d

theorem WideBits.bits_le (w : WideBits) : w.bits ≤ 32 := by
  cases w <;> decide

/-- The low bits of `cmd_data` are the low bits of the command word. -/
theorem dataField_toNat_mod {n : Nat} (hn : n ≤ 64) (cw : CmdWord) :
    (dataField cw).toNat % 2 ^ n = cw.toNat % 2 ^ n := by
  rw [dataField_toNat, Nat.mod_mod_of_dvd _ (Nat.pow_dvd_pow 2 hn)]

/-! ## Operand bits and ignored bits -/

/-- The number of operand bits of the command with the given `op`; they are the lowest bits of `cmd_data` (rule R30). -/
def operandBits (w : WideBits) (op : BitVec 2) : Nat :=
  if op = 0#2 then 64 else if op = 1#2 then 8 else if op = 2#2 then w.bits else 0

theorem operandMask_toNat (w : WideBits) (op : BitVec 2) : (operandMask w op).toNat = 2 ^ operandBits w op - 1 := by
  revert op
  cases w <;> decide

/-- The operand mask keeps the residue that is the operand's value. -/
theorem and_operandMask_toNat (w : WideBits) (op : BitVec 2) (d : DWord) :
    (d &&& operandMask w op).toNat = d.toNat % 2 ^ operandBits w op := by
  rw [BitVec.toNat_and, operandMask_toNat, Nat.and_two_pow_sub_one_eq_mod]

/-- Data that fits the operand has no ignored bit set. -/
theorem and_operandMask_of_lt {w : WideBits} {op : BitVec 2} {d : DWord} (h : d.toNat < 2 ^ operandBits w op) :
    d &&& operandMask w op = d :=
  BitVec.eq_of_toNat_eq (by rw [and_operandMask_toNat, Nat.mod_eq_of_lt h])

/-- The decoder reads `op` and the operand bits and nothing else (rule R33). -/
theorem decode_congr {w : WideBits} {cw cw' : CmdWord} (hop : opField cw = opField cw')
    (hdata : dataField cw &&& operandMask w (opField cw) = dataField cw' &&& operandMask w (opField cw')) :
    decode w cw = decode w cw' := by
  have hmod := congrArg BitVec.toNat hdata
  rw [and_operandMask_toNat, and_operandMask_toNat, ← hop] at hmod
  rcases op_cases (opField cw) with h | h | h | h <;> rw [h] at hmod hop
  · have hseed : dataField cw = dataField cw' := BitVec.eq_of_toNat_eq <| by
      rwa [operandBits, if_pos rfl, Nat.mod_eq_of_lt (dataField cw).isLt, Nat.mod_eq_of_lt (dataField cw').isLt] at hmod
    rw [decode_of_op_init h, decode_of_op_init hop.symm, hseed]
  · have hunit : unit8Field (dataField cw) = unit8Field (dataField cw') := BitVec.eq_of_toNat_eq <| by
      rwa [unit8Field_toNat, unit8Field_toNat]
    rw [decode_of_op_upd8 h, decode_of_op_upd8 hop.symm, hunit]
  · have hunit : unitwField w (dataField cw) = unitwField w (dataField cw') := BitVec.eq_of_toNat_eq <| by
      rwa [unitwField_toNat, unitwField_toNat]
    rw [decode_of_op_updw h, decode_of_op_updw hop.symm, hunit]
  · rw [decode_of_op_fin h, decode_of_op_fin hop.symm]

/-- What the assembler writes into `cmd_data` fits the operand of the command (rule R36). -/
theorem dataField_encode_lt {w : WideBits} {i : Instr} (hi : i.wellFormed w = true) :
    (dataField (encode i)).toNat < 2 ^ operandBits w (opField (encode i)) := by
  cases i with
  | init seed => simpa [encode, operandBits] using seed.isLt
  | upd8 u =>
    have hu : (u.setWidth 64).toNat = u.toNat := BitVec.toNat_setWidth_of_le (by decide)
    simpa [encode, operandBits, hu] using u.isLt
  | updw u =>
    have hu : (u.setWidth 64).toNat = u.toNat := BitVec.toNat_setWidth_of_le (by decide)
    simpa [encode, operandBits, hu, Instr.wellFormed] using hi
  | fin => simp [encode, operandBits]

end Sys2Proof

namespace Sys2Proof.Machine

/-- Only FIN leaves the flag set, whatever it was before (rule R12). -/
theorem exec_done {i : Instr} {s t : State} (h : exec i s = .next t) : t.done = decide (i = .fin) := by
  cases i <;> cases h <;> simp

end Sys2Proof.Machine
end

section
/-! SETTLED: the statements of 30_encoding.md. -/

namespace Sys2Proof.Proofs
open Sys2Proof Sys2Proof.Machine

/-- Settles O6: the masked word is the word's `op` with zero data, so it selects the format, and the one row with that
pattern is the row of the decoded command. -/
theorem decoderFollowsOpcodeMap : Obligations.DecoderFollowsOpcodeMap := by
  refine ⟨fun w cw => ⟨fun h => ?_, fun h => ?_, fun h => ?_, fun h => ?_⟩, fun w cw => ?_⟩
  · exact ⟨_, decode_of_op_init ((and_opMask_eq_iff cw 0#2).mp h) w⟩
  · exact ⟨_, decode_of_op_upd8 ((and_opMask_eq_iff cw 1#2).mp h) w⟩
  · exact ⟨_, decode_of_op_updw ((and_opMask_eq_iff cw 2#2).mp h) w⟩
  · exact decode_of_op_fin ((and_opMask_eq_iff cw 3#2).mp h) w
  · obtain ⟨r, hr, hname, hpattern⟩ := exists_opcodeRow (decode w cw)
    rw [opField_encode_decode] at hpattern
    refine ⟨r, hr, (covers_iff hr cw).mpr hpattern, hname, fun r' hr' hcovers => ?_⟩
    exact opcodeTable_pattern_inj r hr r' hr' (((covers_iff hr' cw).mp hcovers).trans hpattern.symm)

/-- Settles O7: each operand is the residue of `cmd_data` modulo its width, and the low bits of `cmd_data` are those of
the word. -/
theorem operandAssembly : Obligations.OperandAssembly := by
  refine fun w cw => ⟨fun h => ?_, fun h => ?_, fun h => ?_, fun h => decode_of_op_fin h w⟩
  · exact ⟨_, decode_of_op_init h w, dataField_toNat cw⟩
  · refine ⟨_, by rw [decode_of_op_upd8 h, unitOf], ?_⟩
    rw [narrowUnit_toNat, unit8Field_toNat, dataField_toNat_mod (by decide)]
  · refine ⟨_, by rw [decode_of_op_updw h, unitOf], ?_⟩
    rw [wideUnit_toNat, unitwField_toNat, Nat.mod_mod, dataField_toNat_mod (w.bits_le.trans (by decide))]

/-- Settles O8: the decoder reads only `op` and the operand bits, so both words are one command; the seed is all of
`cmd_data`; the data the assembler writes fits the operand. -/
theorem ignoredBitsHaveNoEffect : Obligations.IgnoredBitsHaveNoEffect := by
  refine ⟨fun s cw cw' hop hdata => ?_, fun w d d' h => ?_, fun w i hi => ?_⟩
  · obtain ⟨a, b, e, hexec⟩ := exec_writes (decode s.cfg.wideBits cw) s
    exact ⟨_, hexec, decode_congr hop hdata ▸ hexec⟩
  · rw [decode_cmdWord_init, decode_cmdWord_init] at h
    exact Instr.init.inj h
  · exact and_operandMask_of_lt (dataField_encode_lt hi)

/-- Settles O9: every command answers a next state; from a state whose flag is not the one the command leaves, the flag
changes. -/
theorem everyWordIsACommand : Obligations.EveryWordIsACommand := by
  refine ⟨fun cw s => ?_, fun w cw => ?_⟩
  · obtain ⟨a, b, d, hexec⟩ := exec_writes (decode s.cfg.wideBits cw) s
    exact ⟨_, hexec⟩
  · obtain ⟨a, b, d, hexec⟩ := exec_writes (decode w cw)
      { State.reset with cfg := ⟨w⟩, done := !decide (decode w cw = .fin) }
    have hdone : d = decide (decode w cw = .fin) := exec_done hexec
    refine ⟨_, _, rfl, hexec, fun h => ?_⟩
    simp [hdone] at h

end Sys2Proof.Proofs
end

section
/-! PROOFS of 40_init.md: a start constant blended with the seed, and the pair INIT writes (rule R40). -/

namespace Sys2Proof.Machine

theorem blendSeed_toNat (c : Nat) (seed : DWord) : (blendSeed c seed).toNat = (seed.toNat ^^^ c) % 2 ^ 32 :=
  low32_toNat _

/-- Only the low half of the seed has an effect (rule R40 (a)). -/
theorem blendSeed_eq_extractLsb'_xor (c : Nat) (seed : DWord) :
    blendSeed c seed = seed.extractLsb' 0 32 ^^^ low32 c := by
  rw [blendSeed_eq, BitVec.setWidth_eq_extractLsb' (by decide), BitVec.xor_comm]

/-- The seed cancels between two blends (rule R40 (d)). -/
theorem blendSeed_xor_blendSeed (c c' : Nat) (seed : DWord) :
    blendSeed c seed ^^^ blendSeed c' seed = low32 c ^^^ low32 c' := by
  rw [blendSeed_eq, blendSeed_eq, BitVec.xor_comm (low32 c'), BitVec.xor_assoc, ← BitVec.xor_assoc (seed.setWidth 32),
    BitVec.xor_self, BitVec.zero_xor]

end Sys2Proof.Machine
end

section
/-! SETTLED: the statement of 40_init.md. -/

namespace Sys2Proof.Proofs
open Sys2Proof Sys2Proof.Machine

/-- Settles O12: INIT writes the two blends of the seed, each `low32` of the wide XOR and also the XOR of the low half,
from which the seed cancels; the word carries the whole seed. -/
theorem initEffect : Obligations.InitEffect := by
  refine ⟨fun seed s => ⟨blendSeed init1 seed, blendSeed init2 seed, exec_init seed s, ?_⟩, fun w seed => ?_⟩
  · have hxor : blendSeed init1 seed ^^^ blendSeed init2 seed = 0x9F6B70B8#32 := by
      rw [blendSeed_xor_blendSeed]
      decide
    exact ⟨blendSeed_toNat _ _, blendSeed_toNat _ _, blendSeed_eq_extractLsb'_xor _ _,
      blendSeed_eq_extractLsb'_xor _ _, hxor⟩
  · exact ⟨opField_cmdWord _ _, dataField_cmdWord _ _, decode_cmdWord_init w seed⟩

end Sys2Proof.Proofs
end

section
/-! PROOFS of 41_update.md: one accumulator's share of the mix step, when it is 0 or leaves the accumulator unchanged, and
the two updates as one state operation (rules R41 to R43). -/

namespace Sys2Proof

theorem WideBits.sixteen_le_bits (w : WideBits) : 16 ≤ w.bits := by
  cases w <;> decide

end Sys2Proof

namespace Sys2Proof.Machine

/-! ## The mix step -/

theorem mul1_odd : Odd mul1 := multipliers_odd mul1 (by simp)

theorem mul2_odd : Odd mul2 := multipliers_odd mul2 (by simp)

/-- Both components as numbers, with the multipliers of rule R43. -/
theorem mix_toNat (h1 h2 ch : Word) :
    (mix h1 h2 ch).1.toNat = (2654435761 * (h1 ^^^ ch).toNat) % 2 ^ 32 ∧
    (mix h1 h2 ch).2.toNat = (1597334677 * (h2 ^^^ ch).toNat) % 2 ^ 32 :=
  ⟨low32_toNat _, low32_toNat _⟩

/-- The XOR with the unit can be undone, and so can the product with an odd multiplier. -/
theorem mixOne_bijective {m : Nat} (hm : Odd m) (ch : Word) : Function.Bijective (fun h => mixOne h ch m) := by
  have hxor : Function.Injective (fun h : Word => h ^^^ ch) := fun _ _ => (BitVec.xor_left_inj ch).mp
  exact Finite.injective_iff_bijective.mp ((low32_mul_injective hm).comp hxor)

/-- The accumulator equal to the unit is sent to 0, and by injectivity no other one is. -/
theorem mixOne_eq_zero_iff {m : Nat} (hm : Odd m) (h ch : Word) : mixOne h ch m = 0#32 ↔ h = ch := by
  have hself : mixOne ch ch m = 0#32 := by rw [mixOne_eq, BitVec.xor_self, BitVec.zero_mul]
  rw [← hself]
  exact (mixOne_bijective hm ch).injective.eq_iff

/-- A zero unit keeps `h` exactly if `2^32` divides `(m - 1) * h`: the odd part of `m - 1` cancels, and the remaining
power of 2 leaves a condition on the low bits of `h` (rule R41). -/
theorem mixOne_zero_eq_self_iff {k q : Nat} (hk : k ≤ 32) (hq : Odd q) (h : Word) :
    mixOne h 0#32 (2 ^ k * q + 1) = h ↔ h.toNat % 2 ^ (32 - k) = 0 := by
  have hcop : Nat.Coprime (2 ^ (32 - k)) q := Nat.Coprime.pow_left _ (Nat.coprime_two_left.mpr hq)
  have hpow : 2 ^ 32 = 2 ^ k * 2 ^ (32 - k) := by rw [← pow_add, Nat.add_sub_cancel' hk]
  have hprod : (2 ^ k * q + 1) * h.toNat = h.toNat + 2 ^ k * (q * h.toNat) := by ring
  calc mixOne h 0#32 (2 ^ k * q + 1) = h
    _ ↔ h.toNat + 2 ^ k * (q * h.toNat) ≡ h.toNat [MOD 2 ^ 32] := by
      rw [← BitVec.toNat_inj, mixOne, BitVec.xor_zero, low32_toNat, hprod, Nat.ModEq, Nat.mod_eq_of_lt h.isLt]
    _ ↔ 2 ^ k * 2 ^ (32 - k) ∣ 2 ^ k * (q * h.toNat) := by
      rw [Nat.add_modEq_left_iff, hpow]
    _ ↔ 2 ^ (32 - k) ∣ h.toNat := by
      rw [Nat.mul_dvd_mul_iff_left (Nat.two_pow_pos k), hcop.dvd_mul_left]
    _ ↔ h.toNat % 2 ^ (32 - k) = 0 := Nat.dvd_iff_mod_eq_zero

/-- `MUL1 - 1` is `2^4` times an odd number. -/
theorem mixOne_mul1_zero_eq_self_iff (h : Word) : mixOne h 0#32 mul1 = h ↔ h.toNat % 2 ^ 28 = 0 :=
  mixOne_zero_eq_self_iff (k := 4) (q := 165902235) (by decide) (by decide) h

/-- `MUL2 - 1` is `2^2` times an odd number. -/
theorem mixOne_mul2_zero_eq_self_iff (h : Word) : mixOne h 0#32 mul2 = h ↔ h.toNat % 2 ^ 30 = 0 :=
  mixOne_zero_eq_self_iff (k := 2) (q := 399333669) (by decide) (by decide) h

/-! ## The two updates as state operations -/

theorem absorb_eq (ch : Word) (s : State) :
    absorb ch s = { s with h1 := (mix s.h1 s.h2 ch).1, h2 := (mix s.h1 s.h2 ch).2, done := false } := rfl

@[simp] theorem exec_upd8 (u : Byte) (s : State) : exec (.upd8 u) s = .next (absorb (narrowUnit u) s) := rfl

@[simp] theorem exec_updw (u : Word) (s : State) :
    exec (.updw u) s = .next (absorb (wideUnit s.cfg.wideBits u) s) := rfl

/-- A narrow unit fits every `WIDE_BITS`, so UPDW takes it as UPD8 does (rules R42, R43). -/
theorem wideUnit_narrowUnit (w : WideBits) (v : Byte) : wideUnit w (narrowUnit v) = narrowUnit v := by
  apply wideUnit_of_lt
  calc (narrowUnit v).toNat
    _ = v.toNat := narrowUnit_toNat v
    _ < 2 ^ 8 := v.isLt
    _ ≤ 2 ^ w.bits := Nat.pow_le_pow_right (by decide) (le_trans (by decide) w.sixteen_le_bits)

theorem exec_updw_narrowUnit (v : Byte) (s : State) : exec (.updw (narrowUnit v)) s = exec (.upd8 v) s := by
  rw [exec_updw, exec_upd8, wideUnit_narrowUnit]

end Sys2Proof.Machine
end

section
/-! SETTLED: the statements of 41_update.md. -/

namespace Sys2Proof.Proofs
open Sys2Proof Sys2Proof.Machine

/-- Settles O20: each component is the XOR with the unit, which is 0 only for the accumulator equal to it, and then the
product with an odd multiplier, which is a bijection; a narrow unit fits a wide one. -/
theorem mixFunction : Obligations.MixFunction := by
  refine ⟨mix_toNat, fun h ch => ?_, fun h1 h2 ch => ?_, fun v s => (exec_updw_narrowUnit v s).symm⟩
  · exact ⟨mixOne_bijective mul1_odd ch, mixOne_bijective mul2_odd ch⟩
  · exact ⟨mixOne_eq_zero_iff mul1_odd h1 ch, mixOne_eq_zero_iff mul2_odd h2 ch⟩

/-- Settles O13: UPD8 absorbs the widened byte; a zero byte multiplies by `MUL1` and `MUL2` only, which keeps a word if
`2^32` divides its product with the multiplier less 1. -/
theorem upd8Effect : Obligations.Upd8Effect := by
  refine ⟨fun u s => ?_, fun w d => decode_cmdWord_upd8 w d, fun u => ⟨opField_cmdWord _ _, dataField_cmdWord _ _⟩⟩
  obtain ⟨ha, hb⟩ := mix_toNat s.h1 s.h2 (narrowUnit u)
  refine ⟨_, _, by rw [exec_upd8, absorb_eq], ha, hb, ?_⟩
  rintro rfl
  exact ⟨mixOne_mul1_zero_eq_self_iff s.h1, mixOne_mul2_zero_eq_self_iff s.h2⟩

/-- Settles O14: UPDW absorbs the low `WIDE_BITS` bits, which are all of a narrow unit; building succeeds for the two
widths only. -/
theorem updwEffect : Obligations.UpdwEffect := by
  refine ⟨fun u s => ?_, fun w d => ⟨_, decode_cmdWord_updw w d, unitwField_toNat w d⟩,
    fun u => ⟨opField_cmdWord _ _, dataField_cmdWord _ _⟩, exec_updw_narrowUnit, fun n => ⟨?_, ?_⟩⟩
  · obtain ⟨ha, hb⟩ := mix_toNat s.h1 s.h2 (wideUnit s.cfg.wideBits u)
    exact ⟨_, _, _, by rw [exec_updw, absorb_eq], wideUnit_toNat _ u, ha, hb⟩
  · rintro ⟨w, -, rfl⟩
    cases w with
    | w16 => exact .inl rfl
    | w32 => exact .inr rfl
  · rintro (rfl | rfl)
    · exact ⟨.w16, rfl, rfl⟩
    · exact ⟨.w32, rfl, rfl⟩

end Sys2Proof.Proofs
end

section
/-! PROOFS of 42_finalize.md: a finalisation line as a bijection of its first word, the finalisation of a pair, and the
bits of the assembled result (rules R44 to R46). -/

namespace Sys2Proof.Machine

/-! ## The finalisation -/

theorem fmulA_odd : Odd fmulA := multipliers_odd fmulA (by simp)

/-- A line as the number rule R45 writes. -/
theorem finLine_toNat_spec (x y : Word) :
    (finLine x y).toNat =
      ((2246822507 * (x ^^^ x >>> 16).toNat) ^^^ (3266489909 * (y ^^^ y >>> 13).toNat)) % 2 ^ 32 :=
  low32_toNat _

/-- The two lines in sequence: the second reads the first one's result (rule R45). -/
theorem avalanche_eq (h1 h2 : Word) : avalanche h1 h2 = (finLine h1 h2, finLine h2 (finLine h1 h2)) := rfl

/-- For a fixed second word a line is a bijection: that word's share cancels in the XOR, and the xorshift and the
product with an odd multiplier are injective (rules R7 (e), R45). -/
theorem finLine_bijective (y : Word) : Function.Bijective (fun x => finLine x y) := by
  refine Finite.injective_iff_bijective.mp fun x x' h => ?_
  have hshare : low32 (fmulA * (xorShift x shiftA).toNat) = low32 (fmulA * (xorShift x' shiftA).toNat) := by
    simpa only [finLine, low32_xor, BitVec.xor_left_inj] using h
  exact xorShift_injective (by decide) (low32_mul_injective fmulA_odd hshare)

/-- The finalisation is undone from the back: `a` and `b` determine `H2`, and `a` and `H2` determine `H1` (rule R45). -/
theorem avalanche_injective : Function.Injective (fun p : Word × Word => avalanche p.1 p.2) := by
  rintro ⟨h1, h2⟩ ⟨h1', h2'⟩ h
  obtain ⟨ha, hb⟩ : finLine h1 h2 = finLine h1' h2' ∧ finLine h2 (finLine h1 h2) = finLine h2' (finLine h1' h2') :=
    Prod.mk.inj h
  rw [← ha] at hb
  obtain rfl : h2 = h2' := (finLine_bijective (finLine h1 h2)).injective hb
  obtain rfl : h1 = h1' := (finLine_bijective h2).injective ha
  rfl

theorem avalanche_bijective : Function.Bijective (fun p : Word × Word => avalanche p.1 p.2) :=
  Finite.injective_iff_bijective.mp avalanche_injective

/-! ## The assembled result -/

/-- `{11'b0, h2[20:0], h1}`: the two parts do not overlap, so the sum is the concatenation (rule R46). -/
theorem assemble_eq_append (h1 h2 : Word) : assemble h1 h2 = 0#11 ++ h2.extractLsb' 0 21 ++ h1 := by
  apply BitVec.eq_of_toNat_eq
  have hhigh : (0#11 ++ h2.extractLsb' 0 21).toNat = h2.toNat % 2 ^ 21 := by
    rw [BitVec.toNat_append, BitVec.extractLsb'_toNat, Nat.shiftRight_zero]
    simp
  rw [assemble_toNat, BitVec.toNat_append, hhigh, ← Nat.shiftLeft_add_eq_or_of_lt h1.isLt, Nat.shiftLeft_eq,
    Nat.mul_comm]

theorem assemble_getLsbD_low (h1 h2 : Word) {i : Nat} (hi : i < 32) :
    (assemble h1 h2).getLsbD i = h1.getLsbD i := by
  rw [assemble_eq_append, BitVec.getLsbD_append, if_pos hi]

theorem assemble_getLsbD_high (h1 h2 : Word) {j : Nat} (hj : j < 21) :
    (assemble h1 h2).getLsbD (32 + j) = h2.getLsbD j := by
  rw [assemble_eq_append, BitVec.getLsbD_append, if_neg (by omega), Nat.add_sub_cancel_left, BitVec.getLsbD_append,
    if_pos hj, BitVec.getLsbD_extractLsb', decide_eq_true hj, Bool.true_and, Nat.zero_add]

/-- The result is at most `2^53 - 1` (rule R46). -/
theorem assemble_toNat_lt (h1 h2 : Word) : (assemble h1 h2).toNat < 2 ^ 53 := by
  have := h1.isLt
  rw [assemble_toNat]
  omega

theorem assemble_getLsbD_of_ge (h1 h2 : Word) {i : Nat} (hi : 53 ≤ i) : (assemble h1 h2).getLsbD i = false :=
  Nat.testBit_lt_two_pow ((assemble_toNat_lt h1 h2).trans_le (Nat.pow_le_pow_right (by decide) hi))

/-! ## FIN as a state operation -/

theorem exec_fin_eq (s : State) :
    exec .fin s =
      .next { s with h1 := (avalanche s.h1 s.h2).1, h2 := (avalanche s.h1 s.h2).2, done := true } := rfl

end Sys2Proof.Machine
end

section
/-! SETTLED: the statements of 42_finalize.md. -/

namespace Sys2Proof.Proofs
open Sys2Proof Sys2Proof.Machine

/-- Settles O21: each line is a bijection of its first word for a fixed second one, and the second word of the second
line is `a`. -/
theorem avalancheFunction : Obligations.AvalancheFunction := by
  refine ⟨fun h1 h2 => ?_, by decide, avalanche_bijective, finLine_bijective, fun a => ?_⟩
  · exact ⟨_, _, avalanche_eq h1 h2, finLine_toNat_spec _ _, finLine_toNat_spec _ _⟩
  · refine ⟨fun h2 => finLine h2 a, finLine_bijective a, ?_⟩
    rintro h1 h2 rfl
    rfl

/-- Settles O22: the sum has no carry between its parts, so it is the concatenation, whose bits are those of the
parts. -/
theorem assembleFunction : Obligations.AssembleFunction := by
  refine fun h1 h2 => ⟨?_, assemble_eq_append h1 h2, fun i hi => assemble_getLsbD_low h1 h2 hi,
    fun j hj => assemble_getLsbD_high h1 h2 (Nat.lt_succ_of_le hj), fun i hi => assemble_getLsbD_of_ge h1 h2 hi,
    Nat.le_sub_one_of_lt (assemble_toNat_lt h1 h2)⟩
  rw [assemble_toNat]
  exact congrArg (4294967296 * · + h1.toNat) (and_hiMask h2.toNat).symm

/-- Settles O15: FIN writes the two lines in sequence and sets the flag; `digest` is the assembly of what it wrote. -/
theorem finEffect : Obligations.FinEffect := by
  refine ⟨fun s => ?_, fun w d => decode_cmdWord_fin w d, by decide⟩
  exact ⟨finLine s.h1 s.h2, finLine s.h2 (finLine s.h1 s.h2), _, exec_fin_eq s, rfl, finLine_toNat_spec _ _,
    finLine_toNat_spec _ _, assemble_eq_append _ _⟩

end Sys2Proof.Proofs
end

section
/-! PROOFS of 43_hash_function.md: the state a transaction leaves, the units of the two expansions, the readiness of the
block after its schedule, and what the finalised pair keeps of the seed (rules R47 to R55). -/

namespace Sys2Proof.Machine

/-! ## The digest as a number -/

/-- `H1` and `H2` can be chosen to show any value of 53 bits (rules R46, R51). -/
theorem exists_digest_toNat_eq {v : Nat} (hv : v < 2 ^ 53) : ∃ s : State, (digest s).toNat = v := by
  refine ⟨{ State.reset with h1 := BitVec.ofNat 32 v, h2 := BitVec.ofNat 32 (v / 2 ^ 32) }, ?_⟩
  rw [digest, assemble_toNat, BitVec.toNat_ofNat, BitVec.toNat_ofNat]
  omega

/-! ## The state a transaction leaves -/

/-- `s` with the finalised pair in the accumulators and `DONE` set: the end of a transaction from `s` (rule R47). -/
def finishHash (k : DWord) (c : List Word) (s : State) : State := setDone (writeAccs (finalPair k c) s)

@[simp] theorem finishHash_done (k : DWord) (c : List Word) (s : State) : (finishHash k c s).done = true := rfl

@[simp] theorem digest_finishHash (k : DWord) (c : List Word) (s : State) : digest (finishHash k c s) = cyrb53 c k := rfl

/-- FIN overwrites all that absorbing writes. -/
theorem setDone_writeAccs_absorbUnits (p : Word × Word) (c : List Word) (s : State) :
    setDone (writeAccs p (absorbUnits c s)) = setDone (writeAccs p s) := by
  induction c generalizing s with
  | nil => rfl
  | cons ch c ih => exact ih (absorb ch s)

/-- From the accumulators of a seed, updates fold their units into them and FIN finalises the pair (rules R47, R48). -/
theorem runCommands_updates_fin_eq {k : DWord} {s : State} (h : (s.h1, s.h2) = seedPair k) {us : List Instr}
    (hus : us.all isUpdate = true) :
    runCommands (us ++ [.fin]) s = .next (finishHash k (unitsOf s.cfg.wideBits us) s) := by
  have hpair : avalanche (absorbUnits (unitsOf s.cfg.wideBits us) s).h1 (absorbUnits (unitsOf s.cfg.wideBits us) s).h2 =
      finalPair k (unitsOf s.cfg.wideBits us) := by
    rw [finalPair, ← absorbUnits_accs_of_seedPair h]
  rw [runCommands_append (runCommands_updates s hus), runCommands_cons (exec_fin _), runCommands_nil, hpair,
    setDone_writeAccs_absorbUnits, finishHash]

/-- INIT leaves the accumulators of its seed, whatever they were before (rule R47). -/
theorem runCommands_transaction (k : DWord) {us : List Instr} (s : State) (hus : us.all isUpdate = true) :
    runCommands (transaction k us) s = .next (finishHash k (unitsOf s.cfg.wideBits us) s) := by
  rw [transaction, runCommands_cons (exec_init k s), runCommands_updates_fin_eq rfl hus]
  rfl

/-- After reset the accumulators are those of seed 0, so the INIT may be absent (rules R17, R47). -/
theorem resetBlock_accs (s : State) : ((resetBlock s).h1, (resetBlock s).h2) = seedPair 0#64 := seedPair_zero.symm

/-! ## The two expansions -/

theorem all_isUpdate_map_upd8 (l : List Byte) : (l.map Instr.upd8).all isUpdate = true := by
  simp [isUpdate]

theorem unitsOf_map_upd8 (w : WideBits) (l : List Byte) : unitsOf w (l.map .upd8) = l.map narrowUnit := by
  simp [unitsOf, Function.comp_def, unitOf]

/-- The block reads a unit of `WIDE_BITS` bits as it is. -/
theorem wideUnit_setWidth {w : WideBits} (u : BitVec w.bits) : wideUnit w (u.setWidth 32) = u.setWidth 32 := by
  apply wideUnit_of_lt
  rw [BitVec.toNat_setWidth_of_le w.bits_le]
  exact u.isLt

theorem all_isUpdate_map_updw {w : WideBits} (l : List (BitVec w.bits)) :
    (l.map (fun u => Instr.updw (u.setWidth 32))).all isUpdate = true := by
  simp [isUpdate]

theorem unitsOf_map_updw {w : WideBits} (l : List (BitVec w.bits)) :
    unitsOf w (l.map (fun u => .updw (u.setWidth 32))) = l.map (fun u => u.setWidth 32) := by
  simp [unitsOf, Function.comp_def, unitOf, wideUnit_setWidth]

/-- HASH8 finishes the hash of the widened bytes, for both values of `WIDE_BITS` (rule R49). -/
theorem runCommands_hash8Commands (l : List Byte) (k : DWord) (s : State) :
    runCommands (hash8Commands l k) s = .next (finishHash k (l.map narrowUnit) s) := by
  rw [hash8Commands, runCommands_transaction k s (all_isUpdate_map_upd8 l), unitsOf_map_upd8]

/-- HASHWIDE for the block's own `WIDE_BITS` finishes the hash of the widened units (rule R49). -/
theorem runCommands_hashWideCommands (s : State) (l : List (BitVec s.cfg.wideBits.bits)) (k : DWord) :
    runCommands (hashWideCommands s.cfg.wideBits l k) s = .next (finishHash k (l.map (fun u => u.setWidth 32)) s) := by
  rw [hashWideCommands, runCommands_transaction k s (all_isUpdate_map_updw l), unitsOf_map_updw]

/-- A byte widened by way of a wide unit is the byte widened at once (rules R32, R53). -/
theorem setWidth_setWidth_bits (w : WideBits) (u : Byte) : (u.setWidth w.bits).setWidth 32 = narrowUnit u :=
  BitVec.eq_of_toNat_eq <| by
    rw [BitVec.toNat_setWidth_of_le w.bits_le, BitVec.toNat_setWidth_of_le (le_trans (by decide) w.sixteen_le_bits),
      narrowUnit_toNat]

/-- Bytes sent as wide units are the same unit values (rule R53). -/
theorem map_setWidth_bits (w : WideBits) (l : List Byte) :
    (l.map (fun u => u.setWidth w.bits)).map (fun u => u.setWidth 32) = l.map narrowUnit := by
  simp only [List.map_map, Function.comp_def, setWidth_setWidth_bits]

/-! ## The block becomes ready -/

/-- An edge at which nothing is offered ends the block's work (rule R78). -/
theorem readyAfter_idle (ready : Bool) : readyAfter ready Edge.idle = true := by
  cases ready <;> rfl

/-- One edge after the end of the schedule the block is ready, whatever it worked on (rules R52, R78). -/
theorem core_run_ready (s : State) :
    ∃ t : State, Sys2Proof.core.run (s.edges.length + 1) s = .next t ∧ t.ready = true := by
  induction hes : s.edges generalizing s with
  | nil =>
    obtain ⟨t, u, hstep, -, rfl⟩ := step_cases s
    refine ⟨_, core_run_succ hstep, ?_⟩
    rw [nextEdge, hes]
    exact readyAfter_idle s.ready
  | cons e es ih =>
    obtain ⟨t, u, hstep, -, rfl⟩ := step_cases s
    rw [core_run_succ hstep]
    exact ih _ (congrArg List.tail hes)

/-! ## What the finalised pair keeps of the seed -/

/-- A blend determines the low half of the seed and no more (rule R40). -/
theorem blendSeed_eq_iff (c : Nat) (k k' : DWord) :
    blendSeed c k = blendSeed c k' ↔ k.toNat % 2 ^ 32 = k'.toNat % 2 ^ 32 := by
  rw [blendSeed_eq, blendSeed_eq, BitVec.xor_right_inj, ← BitVec.toNat_inj, BitVec.toNat_setWidth,
    BitVec.toNat_setWidth]

theorem seedPair_eq_iff (k k' : DWord) : seedPair k = seedPair k' ↔ k.toNat % 2 ^ 32 = k'.toNat % 2 ^ 32 := by
  rw [seedPair, seedPair, Prod.mk.injEq, blendSeed_eq_iff, blendSeed_eq_iff, and_self]

/-- The mix step is injective on pairs for a fixed unit, since it is on each accumulator (rule R43). -/
theorem mix_injective (ch : Word) : Function.Injective (fun p : Word × Word => mix p.1 p.2 ch) :=
  (mixOne_bijective mul1_odd ch).injective.prodMap (mixOne_bijective mul2_odd ch).injective

theorem foldl_mix_injective (c : List Word) :
    Function.Injective (fun p : Word × Word => c.foldl (fun p ch => mix p.1 p.2 ch) p) := by
  induction c with
  | nil => exact Function.injective_id
  | cons ch c ih => exact ih.comp (mix_injective ch)

/-- Every step after INIT can be undone for a fixed input, so the finalised pair determines the low half of the seed;
and INIT uses no more of it (rule R55). -/
theorem finalPair_eq_iff (k k' : DWord) (c : List Word) :
    finalPair k c = finalPair k' c ↔ k.toNat % 2 ^ 32 = k'.toNat % 2 ^ 32 := by
  calc finalPair k c = finalPair k' c
    _ ↔ absorbAll k c = absorbAll k' c := avalanche_injective.eq_iff
    _ ↔ seedPair k = seedPair k' := (foldl_mix_injective c).eq_iff
    _ ↔ k.toNat % 2 ^ 32 = k'.toNat % 2 ^ 32 := seedPair_eq_iff k k'

/-- The hash uses the seed's low half only (rules R55, R75). -/
theorem cyrb53_congr_seed {k k' : DWord} (h : k.toNat % 2 ^ 32 = k'.toNat % 2 ^ 32) (c : List Word) :
    cyrb53 c k = cyrb53 c k' := by
  rw [cyrb53, cyrb53, (finalPair_eq_iff k k' c).mpr h]

/-- The finalised pairs of these two seeds for a single zero unit differ only in bits that `assemble` drops. -/
theorem cyrb53_collision : cyrb53 [0#32] 268778959#64 = cyrb53 [0#32] 440381871#64 := by decide

end Sys2Proof.Machine
end

section
/-! SETTLED: the statements of 43_hash_function.md. -/

namespace Sys2Proof.Proofs
open Sys2Proof Sys2Proof.Machine

/-- Settles O31: the fold and the assembly are the formula; the run of a transaction ends in `finishHash`, and after reset
the accumulators are those of seed 0 without INIT. -/
theorem transactionComputesHash : Obligations.TransactionComputesHash := by
  refine ⟨fun k => rfl, absorbAll_snoc, fun k c => ?_, fun k us s hus => ?_, fun us s hus => ?_⟩
  · obtain ⟨hvalue, -⟩ := assembleFunction (finalPair k c).1 (finalPair k c).2
    exact ⟨_, _, rfl, hvalue⟩
  · exact ⟨_, runCommands_transaction k s hus, finishHash_done _ _ s, digest_finishHash _ _ s⟩
  · exact runCommands_updates_fin_hash (resetBlock_accs s) hus

/-- Settles O39: the finalised pair determines the low half of the seed and depends on no more of it; two seeds whose
finalised pairs agree in the 53 bits that `assemble` keeps were found by a search. -/
theorem seedSensitivity : Obligations.SeedSensitivity := by
  refine ⟨by decide, fun c k k' h => cyrb53_congr_seed h c, fun c k k' h => mt (finalPair_eq_iff k k' c).mp h, ?_⟩
  exact ⟨[0#32], 268778959#64, 440381871#64, by decide, cyrb53_collision⟩

/-- Settles O33: both entry points are `cyrb53` by definition, and their expansions are transactions whose units are the
widened ones. -/
theorem entryPoints : Obligations.EntryPoints := by
  refine ⟨fun l k => rfl, fun w l k => rfl, fun l k s => ?_, fun w l k s hw => ?_, fun us k s hus => ?_⟩
  · exact ⟨_, runCommands_hash8Commands l k s, finishHash_done _ _ s, digest_finishHash _ _ s⟩
  · subst hw
    exact ⟨_, runCommands_hashWideCommands s l k, finishHash_done _ _ s, digest_finishHash _ _ s⟩
  · exact ⟨_, runCommands_transaction k s hus, digest_finishHash _ _ s⟩

/-- Settles O37: both expansions finish the hash of the same unit values; the text whose encodings differ is computed. -/
theorem widthVariantsAgree : Obligations.WidthVariantsAgree := by
  refine ⟨fun w l k s hw => ⟨?_, ?_⟩, by decide⟩
  · rw [hash8, hashWide, map_setWidth_bits]
  · subst hw
    refine ⟨_, runCommands_hash8Commands l k s, ?_⟩
    rw [runCommands_hashWideCommands, map_setWidth_bits]

/-- Settles O36: events always end in a next state, and one edge after the end of its schedule the block is ready. -/
theorem hashIsTotal : Obligations.HashIsTotal := by
  refine ⟨fun cs s => ?_, fun k us => ?_, fun s => ⟨_, core_run_ready s⟩⟩
  · obtain ⟨a, b, d, hrun⟩ := runEvents_writes (cs.map .command) s
    exact ⟨_, hrun⟩
  · simp [transaction]

/-- Settles O23: the assembled result is below `2^53`, and the two accumulators can hold the two parts of any such
value. -/
theorem digestRange : Obligations.DigestRange :=
  ⟨fun s => assemble_toNat_lt s.h1 s.h2, fun _ _ => assemble_toNat_lt _ _, fun _ hv => exists_digest_toNat_eq hv⟩

/-- Settles O38: it is the transaction without updates; its hash for seed 0 is computed. -/
theorem emptyInput : Obligations.EmptyInput := by
  refine ⟨fun k s => ?_, by decide⟩
  exact ⟨_, runCommands_transaction k (us := []) s rfl, finishHash_done _ _ s, digest_finishHash _ _ s⟩

end Sys2Proof.Proofs
end

section
/-! SETTLED: the statement of 60_exceptions.md. -/

namespace Sys2Proof.Proofs
open Sys2Proof Sys2Proof.Machine

/-- Settles O29: a command writes the accumulators and the flag only; so does the event of an edge, and what the edge itself
moves on is `cmd_ready`, the schedule and the count. -/
theorem nothingFaults : Obligations.NothingFaults := by
  refine ⟨fun i s => ?_, fun s => ?_⟩
  · obtain ⟨a, b, d, hexec⟩ := exec_writes i s
    exact ⟨_, hexec, rfl⟩
  · obtain ⟨t, u, hstep, hevent, rfl⟩ := step_cases s
    obtain ⟨a, b, d, hwrites⟩ := runEvents_writes (eventAt s.cfg.wideBits s.ready (nextEdge s)) s
    obtain rfl := Host.Outcome.next.inj (hevent.symm.trans hwrites)
    exact ⟨_, hstep, rfl⟩

end Sys2Proof.Proofs
end

section
/-! PROOFS of 70_reset_and_hazards.md: what INIT reads of its seed (rule R75). -/

namespace Sys2Proof.Machine

/-- INIT uses its seed only through the pair of blends, which the low half determines (rules R40, R75). -/
theorem exec_init_congr_seed {k k' : DWord} (h : k.toNat % 2 ^ 32 = k'.toNat % 2 ^ 32) (s : State) :
    exec (.init k) s = exec (.init k') s := by
  rw [exec_init, exec_init, (seedPair_eq_iff k k').mpr h]

/-- The seed with its upper half cleared has the same low half. -/
theorem ofNat_low_half_toNat_mod (k : DWord) :
    (BitVec.ofNat 64 (k.toNat % 2 ^ 32)).toNat % 2 ^ 32 = k.toNat % 2 ^ 32 := by
  rw [BitVec.toNat_ofNat]
  omega

end Sys2Proof.Machine
end

section
/-! SETTLED: the statement of 70_reset_and_hazards.md. -/

namespace Sys2Proof.Proofs
open Sys2Proof Sys2Proof.Machine

/-- Settles O40: the two seeds have the same low half, and neither INIT nor the hash uses more of a seed. -/
theorem upperSeedHalfUnused : Obligations.UpperSeedHalfUnused := by
  refine ⟨fun k s => ⟨_, exec_init k s, ?_⟩, fun c k k' h => cyrb53_congr_seed h c⟩
  rw [exec_init_congr_seed (ofNat_low_half_toNat_mod k) s, exec_init]

end Sys2Proof.Proofs
end

section
/-! PROOFS of 30_encoding.md: the decoder undoes the encoder, and the encoder gives back a word without its ignored bits
(rules R31, R33, R36). -/

namespace Sys2Proof

theorem unit8Field_setWidth (u : Byte) : unit8Field (u.setWidth 64) = u := by
  apply BitVec.eq_of_toNat_eq
  rw [unit8Field_toNat, BitVec.toNat_setWidth_of_le (by decide), Nat.mod_eq_of_lt u.isLt]

theorem decode_encode_updw (w : WideBits) (u : Word) : decode w (encode (.updw u)) = .updw (Machine.wideUnit w u) := by
  rw [encode, decode_cmdWord_updw, unitwField_setWidth]

/-- A command that can be sent as written comes back from its word (rule R36). -/
theorem decode_encode {w : WideBits} {i : Instr} (hi : i.wellFormed w = true) : decode w (encode i) = i := by
  cases i with
  | init seed => exact decode_cmdWord_init w seed
  | upd8 u => rw [encode, decode_cmdWord_upd8, unit8Field_setWidth]
  | updw u => rw [decode_encode_updw, Machine.wideUnit_of_lt (of_decide_eq_true hi)]
  | fin => exact decode_cmdWord_fin w 0#64

/-- The decoder keeps `WIDE_BITS` bits of a wide unit, so what it reads can be sent again as written. -/
theorem decode_wellFormed (w : WideBits) (cw : CmdWord) : (decode w cw).wellFormed w = true := by
  rcases op_cases (opField cw) with h | h | h | h
  · rw [decode_of_op_init h, Instr.wellFormed]
  · rw [decode_of_op_upd8 h, Instr.wellFormed]
  · rw [decode_of_op_updw h, Instr.wellFormed, decide_eq_true_iff, unitwField_toNat]
    exact Nat.mod_lt _ (Nat.two_pow_pos _)
  · rw [decode_of_op_fin h, Instr.wellFormed]

/-- The operand that is assembled again is the residue of `cmd_data` modulo the operand's width. -/
theorem dataField_encode_decode_toNat (w : WideBits) (cw : CmdWord) :
    (dataField (encode (decode w cw))).toNat = (dataField cw).toNat % 2 ^ operandBits w (opField cw) := by
  rcases op_cases (opField cw) with h | h | h | h
  · rw [decode_of_op_init h, encode, dataField_cmdWord, h]
    exact (Nat.mod_eq_of_lt (dataField cw).isLt).symm
  · rw [decode_of_op_upd8 h, encode, dataField_cmdWord, BitVec.toNat_setWidth_of_le (by decide), unit8Field_toNat, h]
    rfl
  · rw [decode_of_op_updw h, encode, dataField_cmdWord, BitVec.toNat_setWidth_of_le (by decide), unitwField_toNat, h]
    rfl
  · rw [decode_of_op_fin h, encode, dataField_cmdWord, h]
    exact (Nat.mod_one _).symm

/-- A decoded command is assembled into its word with the ignored bits cleared (rules R33, R36). -/
theorem encode_decode (w : WideBits) (cw : CmdWord) :
    encode (decode w cw) = cmdWord (opField cw) (dataField cw &&& operandMask w (opField cw)) := by
  have hdata : dataField (encode (decode w cw)) = dataField cw &&& operandMask w (opField cw) := by
    apply BitVec.eq_of_toNat_eq
    rw [dataField_encode_decode_toNat, and_operandMask_toNat]
  rw [← hdata, ← opField_encode_decode w cw, cmdWord_fields]

end Sys2Proof
end

section
/-! SETTLED: the statements of 30_encoding.md on decoding and encoding. -/

namespace Sys2Proof.Proofs
open Sys2Proof Sys2Proof.Machine

/-- Settles O10: by the four formats: an operand that fits is read back, and one that is read is the residue that the
operand mask keeps. -/
theorem decodeEncodeAgree : Obligations.DecodeEncodeAgree :=
  ⟨fun _ _ => decode_encode, fun w cw => ⟨decode_wellFormed w cw, encode_decode w cw⟩⟩

/-- Settles O11: the five words are decoded. -/
theorem decodeSampleWords : Obligations.DecodeSampleWords := by
  unfold Obligations.DecodeSampleWords
  decide

end Sys2Proof.Proofs
end

section
/-! PROOFS of 20_memory.md and 70_reset_and_hazards.md: any number of clock edges as the fold over their events
(rules R26, R78), and what a run shows of it. -/

namespace Sys2Proof.Machine

/-! ## The schedule edge by edge -/

/-- The coming edges are the next one and those of the rest of the schedule. -/
theorem upcoming_succ (n : Nat) {s t : State} (h : t.edges = s.edges.tail) :
    upcoming (n + 1) s = nextEdge s :: upcoming n t := by
  rw [upcoming, upcoming, nextEdge, h]
  cases s.edges with
  | nil => rfl
  | cons e es => simp [List.replicate_succ', ← List.append_assoc, List.take_append_of_le_length]

/-- The events of a schedule start with that of the next edge; after the schedule's end the host offers nothing, so none
is left out there. -/
theorem events_edges (w : WideBits) (ready : Bool) (s : State) :
    events w ready s.edges =
      eventAt w ready (nextEdge s) ++ events w (readyAfter ready (nextEdge s)) s.edges.tail := by
  rw [nextEdge]
  cases s.edges with
  | nil => rfl
  | cons e es => rfl

/-! ## A run -/

/-- Events leave the build parameters as they are (rule R15). -/
theorem runEvents_cfg {vs : List Event} {s t : State} (h : runEvents vs s = .next t) : t.cfg = s.cfg := by
  obtain ⟨a, b, d, hwrites⟩ := runEvents_writes vs s
  cases h.symm.trans hwrites
  rfl

/-- Any number of edges leaves the block that their events leave, and moves the surroundings on (rules R26, R78). -/
theorem core_run_eq_runEvents (n : Nat) (s : State) :
    ∃ u : State, runEvents (events s.cfg.wideBits s.ready (upcoming n s)) s = .next u ∧
      Sys2Proof.core.run n s = .next { u with
        ready := readyAfterAll s.ready (upcoming n s), edges := s.edges.drop n, cycle := s.cycle + n } := by
  induction n generalizing s with
  | zero => exact ⟨s, rfl, rfl⟩
  | succ n ih =>
    obtain ⟨t, v, hstep, hevent, ht⟩ := step_cases s
    obtain ⟨u, hrest, hrun⟩ := ih t
    have hready : t.ready = readyAfter s.ready (nextEdge s) := by rw [ht]
    have hcfg : t.cfg = s.cfg := by rw [ht, ← runEvents_cfg hevent]
    have hedges : t.edges = s.edges.tail := by rw [ht]
    have hcycle : t.cycle + n = s.cycle + (n + 1) := by rw [ht, Nat.add_right_comm, Nat.add_assoc]
    have hv : { t with ready := v.ready, edges := v.edges, cycle := v.cycle } = v := by rw [ht]
    have hblock := runEvents_surroundings hrest v.ready v.edges v.cycle
    rw [hv, hready, hcfg] at hblock
    refine ⟨{ u with ready := v.ready, edges := v.edges, cycle := v.cycle }, ?_, ?_⟩
    · rw [upcoming_succ n hedges, events, runEvents_append hevent, hblock]
    · rw [core_run_succ hstep, hrun, upcoming_succ n hedges, readyAfterAll, hready, hedges, List.drop_tail, hcycle]

/-! ## The safe run -/

/-- FIN finalises the running pair, and DONE then marks it as final (rules R44, R72). -/
theorem runEvent_keeps_safe {v : Event} {vs : List Event} {s t : State} (h : runEvent v s = .next t)
    (hhash : holdsHash s) (hform : keepsForm (!s.done) (v :: vs) = true) :
    holdsHash t ∧ keepsForm (!t.done) vs = true := by
  have absorb_safe : ∀ ch : Word, (!s.done && keepsForm true vs) = true →
      holdsHash (absorb ch s) ∧ keepsForm (!(absorb ch s).done) vs = true := by
    intro ch hupd
    obtain ⟨hdone, hrest⟩ : s.done = false ∧ keepsForm true vs = true := by simpa using hupd
    obtain ⟨k, c, hpair⟩ := hhash
    rw [hdone, if_neg Bool.false_ne_true] at hpair
    refine ⟨⟨k, c ++ [ch], ?_⟩, hrest⟩
    rw [absorbAll_snoc, ← hpair]
    rfl
  cases v with
  | reset =>
    cases h
    exact ⟨⟨0#64, [], resetBlock_accs s⟩, hform⟩
  | command i =>
    cases i with
    | init k =>
      cases h
      exact ⟨⟨k, [], rfl⟩, hform⟩
    | upd8 u =>
      cases h
      exact absorb_safe _ hform
    | updw u =>
      cases h
      exact absorb_safe _ hform
    | fin =>
      cases h
      obtain ⟨hdone, hrest⟩ : s.done = false ∧ keepsForm false vs = true := by simpa [keepsForm] using hform
      obtain ⟨k, c, hpair⟩ := hhash
      rw [hdone, if_neg Bool.false_ne_true] at hpair
      refine ⟨⟨k, c, ?_⟩, hrest⟩
      rw [setDone_done, if_pos rfl, finalPair, ← hpair]
      rfl

/-- Events that keep to the form keep the invariant (rules R47, R73). -/
theorem runEvents_keeps_safe {vs ws : List Event} {s t : State} (h : runEvents vs s = .next t)
    (hhash : holdsHash s) (hform : keepsForm (!s.done) (vs ++ ws) = true) :
    holdsHash t ∧ keepsForm (!t.done) ws = true := by
  induction vs generalizing s with
  | nil =>
    cases h
    exact ⟨hhash, hform⟩
  | cons v vs ih =>
    obtain ⟨a, b, d, hv⟩ := runEvent_writes v s
    rw [runEvents_cons hv] at h
    obtain ⟨hhash', hform'⟩ := runEvent_keeps_safe hv hhash hform
    exact ih h hhash' hform'

/-- Every clock edge keeps the invariant: its event is the first of the coming ones. -/
theorem step_keeps_safeRun {s t : State} (h : step s = .next t) (hs : SafeRun s) : SafeRun t := by
  obtain ⟨hhash, hform⟩ := hs
  obtain ⟨t', u, hstep, hevent, rfl⟩ := step_cases s
  obtain rfl := Host.Outcome.next.inj (hstep.symm.trans h)
  rw [events_edges] at hform
  obtain ⟨hhash', hform'⟩ := runEvents_keeps_safe hevent hhash hform
  refine ⟨hhash', ?_⟩
  rw [← runEvents_cfg hevent] at hform'
  exact hform'

/-- In a safe state with `DONE = 1` the wiring shows the hash of some units (rule R72). -/
theorem digest_of_safeRun {s : State} (hs : SafeRun s) (hdone : s.done = true) :
    ∃ (k : DWord) (c : List Word), digest s = cyrb53 c k := by
  obtain ⟨⟨k, c, hpair⟩, -⟩ := hs
  rw [hdone, if_pos rfl] at hpair
  exact ⟨k, c, by rw [digest, cyrb53, ← hpair]⟩

/-! ## The outputs of a ready block -/

theorem digestPort_of_ready {s : State} (h : s.ready = true) : digestPort s = digest s := if_pos h

theorem donePort_of_ready {s : State} (h : s.ready = true) : donePort s = s.done := if_pos h

end Sys2Proof.Machine
end

section
/-! SETTLED: the statements of 43_hash_function.md and 70_reset_and_hazards.md on the transaction form. -/

namespace Sys2Proof.Proofs
open Sys2Proof Sys2Proof.Machine

/-- Settles O42: the edge's event keeps the accumulators a running or a finalised pair, since the form lets no update or
FIN follow a FIN. -/
theorem safeRunIsKept : Obligations.SafeRunIsKept := fun _ _ hs hstep => step_keeps_safeRun hstep hs

/-- Settles O43: the reset values are the accumulators of seed 0 without units. -/
theorem safeRunAtReset : Obligations.SafeRunAtReset := by
  have hhash : ∀ es : List Edge, holdsHash { State.reset with edges := es } :=
    fun _ => ⟨0#64, [], seedPair_zero.symm⟩
  exact ⟨⟨hhash [], rfl⟩, fun es hes => ⟨hhash es, hes⟩⟩

/-- Settles O44: the ready block shows its wiring and its flag. -/
theorem resultOnShowIsAHash : Obligations.ResultOnShowIsAHash := by
  intro s hs hshow
  obtain ⟨hready, hdone⟩ : s.ready = true ∧ s.done = true := Bool.and_eq_true_iff.mp hshow
  rw [donePort_of_ready hready, digestPort_of_ready hready]
  exact ⟨hdone, digest_of_safeRun hs hdone⟩

end Sys2Proof.Proofs
end

section
/-! PROOFS of 10_state.md and 70_reset_and_hazards.md: what one edge does, the flag after a run, the 32-bit datapath,
and commands executed twice (rules R12, R18, R25, R77, R78). -/

namespace Sys2Proof.Machine

/-! ## One edge -/

theorem low32_init1 : low32 init1 = 0xDEADBEEF#32 := by decide

theorem low32_init2 : low32 init2 = 0x41C6CE57#32 := by decide

/-- A ready block accepts what is offered at an edge without reset (rule R18). -/
theorem accepts_of_ready {s : State} (hrst : (nextEdge s).rst = false) (hvalid : (nextEdge s).cmdValid = true)
    (hready : s.ready = true) : accepts s.ready (nextEdge s) = true := by
  rw [accepts, hrst, hvalid, hready]
  rfl

/-- Without an offer, or while the block works, nothing is accepted (rule R18). -/
theorem accepts_eq_false {ready : Bool} {e : Edge} (h : e.cmdValid = false ∨ ready = false) :
    accepts ready e = false := by
  rcases h with h | h <;> simp [accepts, h]

/-- An edge that offers the word of a well-formed command to a ready block executes that command (rules R18, R36). -/
theorem step_accept_encode {s t : State} {i : Instr} (hi : i.wellFormed s.cfg.wideBits = true)
    (haccepts : accepts s.ready (nextEdge s) = true) (hword : (nextEdge s).word = encode i)
    (hexec : exec i s = .next t) :
    step s = .next { t with ready := (nextEdge s).finishes, edges := s.edges.tail, cycle := s.cycle + 1 } := by
  apply step_accept haccepts
  rw [hword, decode_encode hi, hexec]

@[simp] theorem word_offer (cw : CmdWord) : (offer cw).word = cw := cmdWord_fields cw

/-- A table word of 66 bits is the command word itself (log entry 7). -/
theorem tableWord_toNat (cw : CmdWord) : tableWord 66 cw.toNat = cw := by
  rw [tableWord, Nat.mod_eq_of_lt cw.isLt, BitVec.ofNat_toNat, BitVec.setWidth_eq]

theorem withFetchWord_encode (s : State) (i : Instr) :
    s.withFetchWord 66 (encode i).toNat = { s with ready := true, edges := offer (encode i) :: s.edges.tail } := by
  rw [State.withFetchWord, tableWord_toNat, offerNext]

/-- `cmd_ready` falls only where a reset or a command is at the ports (rule R78, log entry 3). -/
theorem rst_or_cmdValid_of_readyAfter_eq_false {e : Edge} (h : readyAfter true e = false) :
    e.rst = true ∨ e.cmdValid = true := by
  by_contra hnone
  obtain ⟨hrst, hvalid⟩ : e.rst = false ∧ e.cmdValid = false := by simpa using hnone
  simp [readyAfter, accepts_eq_false (.inl hvalid), hrst] at h

/-! ## The flag -/

theorem runEvent_done {v : Event} {s t : State} (h : runEvent v s = .next t) :
    t.done = decide (v = .command .fin) := by
  cases v with
  | reset =>
    cases h
    rfl
  | command i => rw [exec_done h, decide_eq_decide, Event.command.injEq]

/-- `DONE` says whether the last event was FIN (rule R12). -/
theorem runEvents_done {vs : List Event} {s t : State} (h : runEvents vs s = .next t) :
    t.done = match vs.getLast? with
      | none => s.done
      | some v => decide (v = .command .fin) := by
  rcases List.eq_nil_or_concat vs with rfl | ⟨vs, v, rfl⟩
  · cases h
    rfl
  · obtain ⟨a, b, d, hvs⟩ := runEvents_writes vs s
    obtain ⟨a', b', d', hv⟩ := runEvent_writes v { s with h1 := a, h2 := b, done := d }
    rw [List.concat_eq_append, runEvents_append hvs, runEvents_cons hv] at h
    rw [List.concat_eq_append, List.getLast?_append]
    cases h
    exact runEvent_done hv

/-- No command reads the flag (rule R12). -/
theorem exec_withDone {i : Instr} {s t : State} (h : exec i s = .next t) (d : Bool) :
    exec i { s with done := d } = .next t := by
  cases i <;> cases h <;> rfl

/-! ## The 32-bit datapath -/

/-- The multiplier keeps the low 32 bits of the exact product (rules R7 (c), R77 (d)). -/
theorem mixOne_eq_mul32 (h ch : Word) (m : Nat) : mixOne h ch m = mul32 (h ^^^ ch) m := mixOne_eq h ch m

theorem mix_eq_mix32 (h1 h2 ch : Word) : mix h1 h2 ch = mix32 h1 h2 ch := by
  rw [mix, mixOne_eq_mul32, mixOne_eq_mul32, mix32]

/-- Masking each product before the XOR changes nothing (rules R7 (b), R77 (d)). -/
theorem finLine_eq_finLine32 (x y : Word) : finLine x y = finLine32 x y := finLine_eq x y

theorem avalanche_eq_avalanche32 (h1 h2 : Word) : avalanche h1 h2 = avalanche32 h1 h2 := by
  rw [avalanche_eq, finLine_eq_finLine32, finLine_eq_finLine32, avalanche32]

/-! ## Commands executed twice -/

/-- An injective map of pairs that moves a pair moves its image too. -/
theorem apply_twice_ne {f : Word → Word → Word × Word} (hf : Function.Injective (fun p : Word × Word => f p.1 p.2))
    {a b : Word} (h : f a b ≠ (a, b)) : f (f a b).1 (f a b).2 ≠ f a b := fun heq => h (hf heq)

/-- From accumulators that differ from the unit in one bit, the mix step leaves the two multipliers, which differ. -/
theorem mix_ne_self (ch : Word) : mix (ch ^^^ 1#32) (ch ^^^ 1#32) ch ≠ (ch ^^^ 1#32, ch ^^^ 1#32) := by
  have hone : ∀ m : Nat, mixOne (ch ^^^ 1#32) ch m = low32 m := by
    intro m
    rw [mixOne_eq, BitVec.xor_comm ch, BitVec.xor_assoc, BitVec.xor_self, BitVec.xor_zero, BitVec.one_mul]
  have hmul : low32 mul1 ≠ low32 mul2 := by decide
  rw [mix, hone, hone]
  intro h
  obtain ⟨h1, h2⟩ := Prod.mk.inj h
  exact hmul (h1.trans h2.symm)

theorem mix_twice_ne (ch : Word) : ∃ a b : Word,
    mix (mix a b ch).1 (mix a b ch).2 ch ≠ mix a b ch :=
  ⟨_, _, apply_twice_ne (f := fun a b => mix a b ch) (mix_injective ch) (mix_ne_self ch)⟩

theorem avalanche_twice_ne : ∃ a b : Word,
    avalanche (avalanche a b).1 (avalanche a b).2 ≠ avalanche a b := by
  have hmoved : avalanche 1#32 0#32 ≠ (1#32, 0#32) := by decide
  exact ⟨_, _, apply_twice_ne avalanche_injective hmoved⟩

end Sys2Proof.Machine
end

section
/-! SETTLED: the statements of 10_state.md and 70_reset_and_hazards.md on one edge, on runs and on the flag. -/

namespace Sys2Proof.Proofs
open Sys2Proof Sys2Proof.Machine

/-- Settles O27: by induction over the edges, each of which runs its event; a sequence runs on where the one before it
ended. -/
theorem runIsFoldOfAcceptedCommands : Obligations.RunIsFoldOfAcceptedCommands := by
  refine ⟨fun n s => ?_, fun cs ds s t u hcs hds => (runCommands_append hcs).trans hds⟩
  obtain ⟨u, hevents, hrun⟩ := core_run_eq_runEvents n s
  have hcfg := runEvents_cfg hevents
  exact ⟨_, u, hrun, hevents, rfl, rfl, rfl, rfl, hcfg, rfl, rfl,
    fun hready => ⟨digestPort_of_ready hready, donePort_of_ready hready⟩⟩

/-- Settles O26: the flag is the one the last event of the run writes, and no command reads it. -/
theorem doneFlag : Obligations.DoneFlag := by
  refine ⟨fun i s => ?_, fun i s d => ?_, fun n s => ?_⟩
  · obtain ⟨a, b, d, hexec⟩ := exec_writes i s
    exact ⟨_, hexec, exec_done hexec⟩
  · obtain ⟨a, b, e, hexec⟩ := exec_writes i s
    exact ⟨_, _, hexec, exec_withDone hexec d, rfl, rfl⟩
  · obtain ⟨u, hevents, hrun⟩ := core_run_eq_runEvents n s
    have hdone := runEvents_done hevents
    exact ⟨_, hrun, hdone⟩

/-- Settles O5: a quiet edge reads only `finishes`; a run with one event executes it once; a block without a schedule
finishes at the next edge. -/
theorem handshake : Obligations.Handshake := by
  refine ⟨fun s e e' es hrst hrst' hfin hquiet hquiet' => ?_, fun s t hstep hready hfalls => ?_,
    fun n s i hevents => ?_, fun s => ⟨_, core_run_ready s⟩⟩
  · have hstep : step { s with edges := e :: es } = _ := step_quiet hrst (accepts_eq_false hquiet)
    have hstep' : step { s with edges := e' :: es } = _ := step_quiet hrst' (accepts_eq_false hquiet')
    refine ⟨?_, _, hstep, rfl, rfl, rfl⟩
    rw [hstep, hstep']
    simp [nextEdge, takeEdge, hfin]
  · obtain ⟨t', u, hstep', -, rfl⟩ := step_cases s
    obtain rfl := Host.Outcome.next.inj (hstep'.symm.trans hstep)
    rw [hready] at hfalls
    exact rst_or_cmdValid_of_readyAfter_eq_false hfalls
  · obtain ⟨u, hrunEvents, hrun⟩ := core_run_eq_runEvents n s
    obtain ⟨a, b, d, hexec⟩ := exec_writes i s
    have hu : runEvents [.command i] s = .next _ := (runEvents_cons (v := .command i) hexec).trans (runEvents_nil _)
    obtain rfl := Host.Outcome.next.inj (hu.symm.trans (hevents ▸ hrunEvents))
    exact ⟨_, _, hrun, hexec, rfl, rfl, rfl, fun hr => ⟨digestPort_of_ready hr, donePort_of_ready hr⟩⟩

/-- Settles O2: reset and seed 0 write the same two start constants. -/
theorem resetWinsOverCommand : Obligations.ResetWinsOverCommand := by
  refine ⟨fun s hrst => ?_, fun s => ?_⟩
  · rw [step_rst hrst, ← low32_init1, ← low32_init2]
    rfl
  · rw [exec_init, seedPair_zero]
    rfl

/-- Settles O3: the word of a well-formed command decodes to that command, and `withFetchWord` puts it at an accepting
edge. -/
theorem stepRunsDecodedCommand : Obligations.StepRunsDecodedCommand := by
  refine ⟨fun s t i hi hrst hvalid hready hword hexec => ?_, fun s t i hi hexec => ?_⟩
  · exact step_accept_encode hi (accepts_of_ready hrst hvalid hready) hword hexec
  · have hexec' := exec_surroundings hexec true (offer (encode i) :: s.edges.tail) s.cycle
    rw [withFetchWord_encode, step_accept_encode ?_ ?_ ?_ hexec']
    · rfl
    · exact hi
    · exact accepts_of_ready rfl rfl rfl
    · exact word_offer _

/-- Settles O4: the edge accepts or is quiet; the outputs read the state without its schedule. -/
theorem portAcceptance : Obligations.PortAcceptance := by
  refine ⟨fun s t hrst hvalid hready hexec => ?_, fun s hrst hquiet => ?_, fun s es => ⟨rfl, rfl⟩, fun s hready => ?_⟩
  · exact step_accept (accepts_of_ready hrst hvalid hready) hexec
  · rw [step_quiet hrst (accepts_eq_false hquiet)]
    rfl
  · exact ⟨digestPort_of_ready hready, donePort_of_ready hready⟩

/-- Settles O16: a command writes the accumulators and the flag only. -/
theorem commandFrame : Obligations.CommandFrame := by
  intro i s
  obtain ⟨a, b, d, hexec⟩ := exec_writes i s
  refine ⟨_, hexec, rfl, rfl, rfl, rfl, ?_⟩
  rw [exec_done hexec, decide_eq_true_iff]

/-- Settles O24: the assembled result is the concatenation of the wires, whose top part is the constant 0. -/
theorem digestIsWiring : Obligations.DigestIsWiring := by
  have hwires : ∀ s : State, digest s = 0#11 ++ s.h2.extractLsb' 0 21 ++ s.h1 := fun s => assemble_eq_append s.h1 s.h2
  refine ⟨hwires, fun s t h1 h2 => ?_, fun s => ?_⟩
  · rw [hwires, hwires, h1, h2]
  · rw [hwires, BitVec.append_assoc]
    exact BitVec.extractLsb'_append_eq_left

/-- Settles O25: the two states differ in bit 21 of `H2` only, which is not on `digest`; after FIN it is. -/
theorem hiddenBitsReachTheDigest : Obligations.HiddenBitsReachTheDigest := by
  refine ⟨State.reset, { State.reset with h2 := State.reset.h2 ^^^ 0x00200000#32 }, _, _, by decide, rfl,
    exec_fin _, exec_fin _, by decide⟩

/-- Settles O19: the exact products and XORs, narrowed once, are the 32-bit ones, whose multipliers are computed. -/
theorem narrowDatapathIsExact : Obligations.NarrowDatapathIsExact := by
  refine ⟨mix_eq_mix32, avalanche_eq_avalanche32, fun h1 h2 ch => ?_, fun h1 h2 => ?_⟩
  · rw [mix, mixOne_eq, mixOne_eq]
    rfl
  · exact ⟨_, _, avalanche_eq h1 h2, finLine_eq _ _, finLine_eq _ _⟩

/-- Settles O30: INIT writes the pair of its seed whatever the accumulators were; the mix step and the finalisation are
injective, so a state they move is still moving after one execution. -/
theorem initForgetsTheRestDoNot : Obligations.InitForgetsTheRestDoNot := by
  refine ⟨fun cs k s => ?_, fun k s t h => ?_, fun i hi => ?_⟩
  · obtain ⟨a, b, d, hcs⟩ := runEvents_writes (cs.map .command) s
    refine ⟨_, _, ?_, exec_init k s, rfl, rfl, rfl⟩
    rw [runCommands_append hcs, runCommands_cons (exec_init k _), runCommands_nil]
    rfl
  · cases h
    rfl
  · cases i with
    | init k => simp [isUpdate] at hi
    | upd8 u =>
      obtain ⟨a, b, hne⟩ := mix_twice_ne (narrowUnit u)
      exact ⟨{ State.reset with h1 := a, h2 := b }, _, _, exec_upd8 u _, exec_upd8 u _, hne⟩
    | updw u =>
      obtain ⟨a, b, hne⟩ := mix_twice_ne (wideUnit Config.default.wideBits u)
      exact ⟨{ State.reset with h1 := a, h2 := b }, _, _, exec_updw u _, exec_updw u _, hne⟩
    | fin =>
      obtain ⟨a, b, hne⟩ := avalanche_twice_ne
      exact ⟨{ State.reset with h1 := a, h2 := b }, _, _, exec_fin _, exec_fin _, hne⟩

/-- Settles O41: the hashes are computed. -/
theorem orderAndZeroUnitsCount : Obligations.OrderAndZeroUnitsCount :=
  ⟨⟨[0x61#8, 0x62#8], 0#64, by decide⟩, 0#64, by decide⟩

end Sys2Proof.Proofs
end

section
/-! PROOFS of 43_hash_function.md and 70_reset_and_hazards.md: the form of a transaction, and the events and the length
of the schedule that sends one (rules R47, R50, R79). -/

namespace Sys2Proof.Machine

/-! ## The transaction form -/

theorem updatesThenFin_iff (cs : List Instr) :
    updatesThenFin cs = true ↔ ∃ us : List Instr, us.all isUpdate = true ∧ cs = us ++ [.fin] := by
  induction cs with
  | nil => simp [updatesThenFin]
  | cons i is ih =>
    cases is with
    | nil =>
      rw [updatesThenFin, decide_eq_true_iff]
      refine ⟨fun h => ⟨[], rfl, by rw [h]; rfl⟩, ?_⟩
      rintro ⟨us, -, hcs⟩
      cases us with
      | nil => exact (List.cons.inj hcs).1
      | cons u us => simp at hcs
    | cons j is =>
      rw [updatesThenFin, Bool.and_eq_true, ih]
      constructor
      · rintro ⟨hi, us, hus, hcs⟩
        refine ⟨i :: us, ?_, by rw [hcs, List.cons_append]⟩
        rw [List.all_cons, hi, hus]
        rfl
      · rintro ⟨us, hus, hcs⟩
        cases us with
        | nil => simp at hcs
        | cons u us =>
          obtain ⟨rfl, hrest⟩ := List.cons.inj hcs
          rw [List.all_cons, Bool.and_eq_true] at hus
          exact ⟨hus.1, us, hus.2, hrest⟩

theorem isTransaction_iff (cs : List Instr) :
    isTransaction cs = true ↔ ∃ (k : DWord) (us : List Instr), us.all isUpdate = true ∧ cs = transaction k us := by
  cases cs with
  | nil => simp [isTransaction, transaction]
  | cons i is =>
    simp only [transaction, List.cons_eq_cons]
    cases i with
    | init k => simp [isTransaction, updatesThenFin_iff]
    | upd8 u => simp [isTransaction]
    | updw u => simp [isTransaction]
    | fin => simp [isTransaction]

/-! ## Units of both widths -/

/-- A command that a 16-bit block can be sent as written carries the same unit to a 32-bit block (rule R50). -/
theorem unitOf_w16_eq_w32 {i : Instr} (hi : i.wellFormed .w16 = true) : unitOf .w16 i = unitOf .w32 i := by
  cases i with
  | init k => rfl
  | upd8 u => rfl
  | updw u => rw [unitOf, unitOf, wideUnit_of_lt (of_decide_eq_true hi), wideUnit]
  | fin => rfl

theorem unitsOf_w16_eq_w32 {us : List Instr} (hus : us.all (Instr.wellFormed .w16) = true) :
    unitsOf .w16 us = unitsOf .w32 us :=
  List.filterMap_congr fun i hi => unitOf_w16_eq_w32 (List.all_eq_true.mp hus i hi)

/-! ## A transaction at the end of a run -/

/-- If the last events of a run are a transaction, the run ends with its hash, whatever came before (rule R50). -/
theorem core_run_transaction {n : Nat} {s : State} {before : List Event} {k : DWord} {us : List Instr}
    (hus : us.all isUpdate = true)
    (h : events s.cfg.wideBits s.ready (upcoming n s) = before ++ (transaction k us).map .command) :
    ∃ t : State, Sys2Proof.core.run n s = .next t ∧ t.done = true ∧
      digest t = cyrb53 (unitsOf s.cfg.wideBits us) k ∧ t.ready = readyAfterAll s.ready (upcoming n s) ∧
      t.edges = s.edges.drop n := by
  obtain ⟨u, hevents, hrun⟩ := core_run_eq_runEvents n s
  obtain ⟨a, b, d, hbefore⟩ := runEvents_writes before s
  rw [h, runEvents_append hbefore] at hevents
  obtain rfl := Host.Outcome.next.inj ((runCommands_transaction k _ hus).symm.trans hevents)
  exact ⟨_, hrun, rfl, digest_finishHash k _ s, rfl, rfl⟩

/-! ## The events of the schedule of a command sequence -/

theorem events_append (w : WideBits) (ready : Bool) (es fs : List Edge) :
    events w ready (es ++ fs) = events w ready es ++ events w (readyAfterAll ready es) fs := by
  induction es generalizing ready with
  | nil => rfl
  | cons e es ih => rw [List.cons_append, events, events, readyAfterAll, ih, List.append_assoc]

theorem readyAfterAll_append (ready : Bool) (es fs : List Edge) :
    readyAfterAll ready (es ++ fs) = readyAfterAll (readyAfterAll ready es) fs := by
  induction es generalizing ready with
  | nil => rfl
  | cons e es ih => rw [List.cons_append, readyAfterAll, readyAfterAll, ih]

/-- An edge without reset at which nothing is accepted has no event, and `cmd_ready` does not fall there. -/
theorem eventAt_quiet (w : WideBits) {ready : Bool} {e : Edge} (hrst : e.rst = false)
    (hquiet : accepts ready e = false) : eventAt w ready e = [] := by
  simp [eventAt, hrst, hquiet]

theorem readyAfter_quiet {ready : Bool} {e : Edge} (hrst : e.rst = false) (hquiet : accepts ready e = false) :
    readyAfter ready e = (ready || e.finishes) := by
  simp [readyAfter, hrst, hquiet]

theorem eventAt_accept (w : WideBits) {ready : Bool} {e : Edge} (hrst : e.rst = false)
    (haccepts : accepts ready e = true) : eventAt w ready e = [.command (decode w e.word)] := by
  simp [eventAt, hrst, haccepts]

/-- While the host pauses, a ready block has no event and stays ready. -/
theorem pauseEdges_quiet (w : WideBits) (noise : Edge) (n : Nat) :
    events w true (pauseEdges noise n) = [] ∧ readyAfterAll true (pauseEdges noise n) = true := by
  induction n with
  | zero => exact ⟨rfl, rfl⟩
  | succ n ih =>
    rw [pauseEdges, List.replicate_succ, events, readyAfterAll, eventAt_quiet w rfl (accepts_eq_false (.inl rfl)),
      readyAfter_quiet rfl (accepts_eq_false (.inl rfl))]
    exact ih

/-- While the block works it accepts nothing, and the last of its edges makes it ready. -/
theorem workEdges_quiet (w : WideBits) (noise : Edge) (n : Nat) :
    events w (decide (n = 0)) (workEdges noise n) = [] ∧
      readyAfterAll (decide (n = 0)) (workEdges noise n) = true := by
  induction n with
  | zero => exact ⟨rfl, rfl⟩
  | succ n ih =>
    rw [decide_eq_false n.succ_ne_zero, workEdges, events, readyAfterAll,
      eventAt_quiet w rfl (accepts_eq_false (.inr rfl)), readyAfter_quiet rfl (accepts_eq_false (.inr rfl)),
      Bool.false_or]
    exact ih

/-- What a block reads of a command it is sent. -/
def received (w : WideBits) (i : Instr) : Instr := decode w (encode i)

/-- A ready block accepts an offered word and becomes ready when the edge says so, however long the command takes. -/
theorem eventAt_offer (w : WideBits) (cw : CmdWord) (finishes : Bool) :
    eventAt w true { offer cw with finishes := finishes } = [.command (decode w cw)] := by
  have hword : ({ offer cw with finishes := finishes } : Edge).word = cw := word_offer cw
  rw [eventAt_accept w rfl rfl, hword]

/-- A command's edges have one event, the command, and leave the block ready (rule R79). -/
theorem commandEdges_event (w : WideBits) (noise : Edge) {lat : Nat} (hlat : 1 ≤ lat) (i : Instr) :
    events w true (commandEdges noise lat i) = [.command (received w i)] ∧
      readyAfterAll true (commandEdges noise lat i) = true := by
  obtain ⟨n, rfl⟩ := Nat.exists_eq_add_of_le' hlat
  obtain ⟨hevents, hready⟩ := workEdges_quiet w noise n
  have hfirst : ∀ f : Bool, readyAfter true { offer (encode i) with finishes := f } = f := fun _ => rfl
  have hwork : decide (n + 1 ≤ 1) = decide (n = 0) := decide_eq_decide.mpr (by omega)
  rw [commandEdges, events, readyAfterAll, hfirst, hwork, Nat.add_sub_cancel, hevents, hready, eventAt_offer,
    List.append_nil, received]
  exact ⟨rfl, rfl⟩

theorem latencyOf_pos {l : Latencies} (hl : l.legal = true) (i : Instr) : 1 ≤ latencyOf l i := by
  obtain ⟨⟨hinit, hupd⟩, hfin⟩ : (1 ≤ l.init ∧ 1 ≤ l.upd) ∧ 1 ≤ l.fin := by simpa [Latencies.legal] using hl
  cases i with
  | init k => exact hinit
  | upd8 u => exact hupd
  | updw u => exact hupd
  | fin => exact hfin

/-- The schedule's events are its commands, and after them the block is ready (rule R79). -/
theorem commandSchedule_events (w : WideBits) {l : Latencies} (hl : l.legal = true) (noise : Edge)
    (ps : List (Nat × Instr)) :
    events w true (commandSchedule l noise ps) = ((ps.map Prod.snd).map (received w)).map .command ∧
      readyAfterAll true (commandSchedule l noise ps) = true := by
  induction ps with
  | nil => exact ⟨rfl, rfl⟩
  | cons p ps ih =>
    obtain ⟨hrest, hready⟩ := ih
    obtain ⟨hpause, hpauseReady⟩ := pauseEdges_quiet w noise p.1
    obtain ⟨hcommand, hcommandReady⟩ := commandEdges_event w noise (latencyOf_pos hl p.2) p.2
    rw [commandSchedule, List.flatMap_cons, ← commandSchedule]
    simp only [events_append, readyAfterAll_append, hpause, hpauseReady, hcommand, hcommandReady, hrest, hready]
    exact ⟨rfl, trivial⟩

/-! ## The length of the schedule -/

theorem length_workEdges (noise : Edge) (n : Nat) : (workEdges noise n).length = n := by
  induction n with
  | zero => rfl
  | succ n ih => rw [workEdges, List.length_cons, ih]

theorem length_commandEdges (noise : Edge) {lat : Nat} (hlat : 1 ≤ lat) (i : Instr) :
    (commandEdges noise lat i).length = lat := by
  rw [commandEdges, List.length_cons, length_workEdges, Nat.sub_add_cancel hlat]

/-- A schedule has the edges of its latencies and of its pauses (rule R79). -/
theorem length_commandSchedule {l : Latencies} (hl : l.legal = true) (noise : Edge) (ps : List (Nat × Instr)) :
    (commandSchedule l noise ps).length = ((ps.map Prod.snd).map (latencyOf l)).sum + (ps.map Prod.fst).sum := by
  induction ps with
  | nil => rfl
  | cons p ps ih =>
    rw [commandSchedule, List.flatMap_cons, ← commandSchedule, List.length_append, ih, List.length_append,
      length_commandEdges noise (latencyOf_pos hl p.2), pauseEdges, List.length_replicate]
    simp only [List.map_cons, List.sum_cons]
    omega

theorem latencyOf_update {l : Latencies} {i : Instr} (hi : isUpdate i = true) : latencyOf l i = l.upd := by
  cases i with
  | init k => simp [isUpdate] at hi
  | upd8 u => rfl
  | updw u => rfl
  | fin => simp [isUpdate] at hi

/-- `LAT_INIT + n * LAT_UPD + LAT_FIN` (rule R79). -/
theorem latency_transaction (l : Latencies) (k : DWord) {us : List Instr} (hus : us.all isUpdate = true) :
    ((transaction k us).map (latencyOf l)).sum = l.init + us.length * l.upd + l.fin := by
  have hupd : us.map (latencyOf l) = List.replicate us.length l.upd :=
    List.map_eq_replicate_iff.mpr fun i hi => latencyOf_update (List.all_eq_true.mp hus i hi)
  rw [transaction, List.map_cons, List.map_append, hupd]
  simp [latencyOf, Nat.add_assoc]

/-! ## A transaction as the block reads it -/

theorem received_init (w : WideBits) (k : DWord) : received w (.init k) = .init k := decode_cmdWord_init w k

theorem received_fin (w : WideBits) : received w .fin = .fin := decode_cmdWord_fin w 0#64

theorem map_received_transaction (w : WideBits) (k : DWord) (us : List Instr) :
    (transaction k us).map (received w) = transaction k (us.map (received w)) := by
  rw [transaction, transaction, List.map_cons, List.map_append, received_init, List.map_singleton, received_fin]

/-- The block reads the unit it would execute anyway (log entry 8). -/
theorem unitOf_received (w : WideBits) (i : Instr) : unitOf w (received w i) = unitOf w i := by
  cases i with
  | init k => rw [received_init]
  | upd8 u => rw [received, decode_encode rfl]
  | updw u => rw [received, decode_encode_updw, unitOf, unitOf, wideUnit_idem]
  | fin => rw [received_fin]

theorem unitsOf_map_received (w : WideBits) (us : List Instr) : unitsOf w (us.map (received w)) = unitsOf w us := by
  rw [unitsOf, List.filterMap_map]
  exact List.filterMap_congr fun i _ => unitOf_received w i

theorem all_isUpdate_map_received (w : WideBits) {us : List Instr} (hus : us.all isUpdate = true) :
    (us.map (received w)).all isUpdate = true := by
  have hkeeps : ∀ i : Instr, isUpdate (received w i) = isUpdate i := fun i => by
    rw [isUpdate_iff_unitOf w, unitOf_received, isUpdate_iff_unitOf w]
  simpa only [List.all_map, Function.comp_def, hkeeps] using hus

end Sys2Proof.Machine
end

section
/-! SETTLED: the statements of 43_hash_function.md and 70_reset_and_hazards.md on transactions. -/

namespace Sys2Proof.Proofs
open Sys2Proof Sys2Proof.Machine

/-- Settles O32: by induction over the commands behind the INIT. -/
theorem transactionFormCheck : Obligations.TransactionFormCheck := isTransaction_iff

/-- Settles O34: INIT forgets what came before the transaction; a unit of 16 bits is read alike by both blocks. -/
theorem hashIsDeterministic : Obligations.HashIsDeterministic := by
  refine ⟨fun n s before k us hus hevents => ?_, fun us => unitsOf_w16_eq_w32⟩
  obtain ⟨t, hrun, hdone, hdigest, -, -⟩ := core_run_transaction hus hevents
  exact ⟨t, hrun, hdone, hdigest⟩

/-- Settles O35: the events of the schedule are the transaction and its length is the count of edges, so the run ends
with the hash exactly at the schedule's end. -/
theorem transactionCycleCount : Obligations.TransactionCycleCount := by
  intro l noise k us ps rest s hl hus hps hready hedges
  obtain ⟨hevents, hreadyAfter⟩ := commandSchedule_events s.cfg.wideBits hl noise ps
  have hlength := length_commandSchedule hl noise ps
  rw [hps, map_received_transaction] at hevents
  rw [hps, latency_transaction l k hus] at hlength
  rw [← hlength]
  have hupcoming : upcoming (commandSchedule l noise ps).length s = commandSchedule l noise ps := by
    rw [upcoming, hedges, List.append_assoc, List.take_left]
  obtain ⟨t, hrun, hdone, hdigest, htready, htedges⟩ := core_run_transaction (before := [])
    (all_isUpdate_map_received s.cfg.wideBits hus) (by rw [hready, hupcoming, hevents, List.nil_append])
  rw [hready, hupcoming, hreadyAfter] at htready
  rw [hedges, List.drop_left] at htedges
  rw [unitsOf_map_received] at hdigest
  refine ⟨t, hrun, htready, ?_, ?_, htedges⟩
  · rw [donePort_of_ready htready, hdone]
  · rw [digestPort_of_ready htready, hdigest]

end Sys2Proof.Proofs
end

section
/-! PROOFS of 30_encoding.md section 5: what the readers of the assembler make of a number, an operand, a list, a string
and a seed that are written as the rules R36 and R37 say. -/

namespace Sys2Proof.Machine

/-! ## Digits -/

/-- Digits are read up to the first character that is none; each one multiplies what stands before it by the base. -/
theorem readDigits_append (digit : Char → Option Nat) (base : Nat) {ds r : List Char}
    (hds : ∀ c ∈ ds, (digit c).isSome = true) (hr : ∀ c ∈ r.head?, digit c = none) (acc : Nat) :
    readDigits digit base acc (ds ++ r) = (ds.foldl (fun a c => a * base + (digit c).getD 0) acc, r) := by
  induction ds generalizing acc with
  | nil =>
    cases r with
    | nil => rfl
    | cons c cs => rw [List.nil_append, readDigits, hr c rfl, List.foldl_nil]
  | cons c cs ih =>
    obtain ⟨hc, hcs⟩ := List.forall_mem_cons.mp hds
    obtain ⟨d, hd⟩ := Option.isSome_iff_exists.mp hc
    rw [List.cons_append, readDigits, hd]
    simp only [ih hcs, List.foldl_cons, hd, Option.getD_some]

theorem readNat_append (digit : Char → Option Nat) (base : Nat) {ds r : List Char} (hne : ds ≠ [])
    (hds : ∀ c ∈ ds, (digit c).isSome = true) (hr : ∀ c ∈ r.head?, digit c = none) :
    readNat digit base (ds ++ r) = some (ds.foldl (fun a c => a * base + (digit c).getD 0) 0, r) := by
  obtain ⟨c, cs, rfl⟩ := List.exists_cons_of_ne_nil hne
  obtain ⟨hc, hcs⟩ := List.forall_mem_cons.mp hds
  obtain ⟨d, hd⟩ := Option.isSome_iff_exists.mp hc
  rw [List.cons_append, readNat, hd]
  simp only [readDigits_append digit base hcs hr, List.foldl_cons, hd, Option.getD_some, Nat.zero_mul, Nat.zero_add]

/-! ## Numbers -/

/-- What stands behind a number in an operand: nothing, a comma or a closing bracket. -/
def EndsNumber (r : List Char) : Prop := ∀ c ∈ r.head?, c = ',' ∨ c = ']'

theorem endsNumber_nil : EndsNumber [] := by simp [EndsNumber]

theorem endsNumber_comma (r : List Char) : EndsNumber (',' :: r) := by simp [EndsNumber]

theorem endsNumber_bracket (r : List Char) : EndsNumber (']' :: r) := by simp [EndsNumber]

theorem EndsNumber.decDigit {r : List Char} (h : EndsNumber r) : ∀ c ∈ r.head?, decDigit c = none := by
  intro c hc
  rcases h c hc with rfl | rfl <;> decide

theorem EndsNumber.hexDigit {r : List Char} (h : EndsNumber r) : ∀ c ∈ r.head?, hexDigit c = none := by
  intro c hc
  rcases h c hc with rfl | rfl <;> decide

theorem ne_of_decDigit {c d : Char} (hc : (decDigit c).isSome = true) (hd : (decDigit d).isSome = false) : c ≠ d := by
  rintro rfl
  rw [hc] at hd
  cases hd

theorem isBlank_of_decDigit {c : Char} (hc : (decDigit c).isSome = true) : isBlank c = false := by
  by_contra hblank
  have hnat : c.toNat = 32 ∨ c.toNat = 9 := by
    simpa only [isBlank, Bool.not_eq_false, Bool.or_eq_true, beq_iff_eq] using hblank
  rcases hnat with h | h <;> simp [decDigit, h] at hc

/-- Behind the first digit of a decimal number no `x` follows that would make it a hexadecimal one. -/
theorem head?_decimal_ne_x {cs r : List Char} (hcs : ∀ c ∈ cs, (decDigit c).isSome = true) (hr : EndsNumber r) :
    (cs ++ r).head? ≠ some 'x' := by
  intro hx
  cases cs with
  | nil => rcases hr 'x' hx with h | h <;> revert h <;> decide
  | cons c cs => exact ne_of_decDigit (List.forall_mem_cons.mp hcs).1 (d := 'x') (by decide) (Option.some.inj hx)

/-- A legal number is read with its value, whichever way it is written (rule R36). -/
theorem readNumber_text {x : Numeral} (hx : x.legal = true) {r : List Char} (hr : EndsNumber r) :
    readNumber (x.text ++ r) = some (x.value, r) := by
  cases x with
  | dec ds =>
    obtain ⟨hne, hds⟩ : ds ≠ [] ∧ ∀ c ∈ ds, (decDigit c).isSome = true := by simpa [Numeral.legal] using hx
    obtain ⟨c, cs, rfl⟩ := List.exists_cons_of_ne_nil hne
    obtain ⟨hc, hcs⟩ := List.forall_mem_cons.mp hds
    have hquote : (c == quoteChar) = false := beq_false_of_ne (ne_of_decDigit hc (by decide))
    have hdecimal : (c == '0' && (cs ++ r).head? == some 'x') = false := by
      rw [beq_false_of_ne (head?_decimal_ne_x hcs hr), Bool.and_false]
    rw [Numeral.text, List.cons_append, readNumber, hquote, hdecimal, if_neg Bool.false_ne_true,
      if_neg Bool.false_ne_true, ← List.cons_append, readNat_append decDigit 10 hne hds hr.decDigit, Numeral.value]
  | hex ds =>
    obtain ⟨hne, hds⟩ : ds ≠ [] ∧ ∀ c ∈ ds, (hexDigit c).isSome = true := by simpa [Numeral.legal] using hx
    exact readNat_append hexDigit 16 hne hds hr.hexDigit
  | char c =>
    have hliteral : (isPrintable c && quoteChar == quoteChar) = true := by rw [show isPrintable c = true from hx]; rfl
    exact if_pos hliteral

/-- A legal number starts with a digit or a quote. -/
theorem text_eq_cons {x : Numeral} (hx : x.legal = true) :
    ∃ (c : Char) (cs : List Char), x.text = c :: cs ∧ isBlank c = false ∧ c ≠ ']' := by
  cases x with
  | dec ds =>
    obtain ⟨hne, hds⟩ : ds ≠ [] ∧ ∀ c ∈ ds, (decDigit c).isSome = true := by simpa [Numeral.legal] using hx
    obtain ⟨c, cs, rfl⟩ := List.exists_cons_of_ne_nil hne
    obtain ⟨hc, -⟩ := List.forall_mem_cons.mp hds
    exact ⟨c, cs, rfl, isBlank_of_decDigit hc, ne_of_decDigit hc (by decide)⟩
  | hex ds => exact ⟨'0', 'x' :: ds, rfl, by decide, by decide⟩
  | char c => exact ⟨quoteChar, [c, quoteChar], rfl, by decide, by decide⟩

theorem skipBlanks_cons {c : Char} (hc : isBlank c = false) (cs : List Char) : skipBlanks (c :: cs) = c :: cs := by
  simp [skipBlanks, hc]

theorem skipBlanks_space (t : List Char) : skipBlanks (' ' :: t) = skipBlanks t := rfl

theorem skipBlanks_text {x : Numeral} (hx : x.legal = true) (r : List Char) :
    skipBlanks (x.text ++ r) = x.text ++ r := by
  obtain ⟨c, cs, htext, hblank, -⟩ := text_eq_cons hx
  rw [htext, List.cons_append, skipBlanks_cons hblank]

/-- The operand of a command is taken exactly if it is in range (rule R36). -/
theorem readOperand_text {x : Numeral} (hx : x.legal = true) (bits : Nat) :
    readOperand bits (' ' :: x.text) = if x.value < 2 ^ bits then some x.value else none := by
  have hread : readNumber (skipBlanks (' ' :: x.text)) = some (x.value, []) := by
    rw [skipBlanks_space, ← List.append_nil x.text, skipBlanks_text hx, readNumber_text hx endsNumber_nil]
  have hend : atEnd [] = true := rfl
  simp only [readOperand, hread, hend, and_true]

/-! ## Sequences and seeds -/

theorem readList_space (fuel : Nat) (t : List Char) : readList fuel (' ' :: t) = readList fuel t := by
  cases fuel <;> rfl

/-- A list of legal numbers is read with their values; one unit of fuel is used for each (rule R37). -/
theorem readList_joinText {x : Numeral} {xs : List Numeral} (hx : x.legal = true) (hxs : ∀ y ∈ xs, y.legal = true)
    {fuel : Nat} (hfuel : xs.length < fuel) (r : List Char) :
    readList fuel (joinText ((x :: xs).map Numeral.text) ++ r) = some ((x :: xs).map Numeral.value, r) := by
  induction xs generalizing x fuel with
  | nil =>
    obtain ⟨n, rfl⟩ := Nat.exists_eq_add_one_of_ne_zero (Nat.ne_of_gt hfuel)
    have htext : joinText ([x].map Numeral.text) ++ r = x.text ++ ']' :: r := by simp [joinText]
    rw [htext, readList, skipBlanks_text hx, readNumber_text hx (endsNumber_bracket r)]
    rfl
  | cons y ys ih =>
    obtain ⟨n, rfl⟩ := Nat.exists_eq_add_one_of_ne_zero (Nat.ne_zero_of_lt hfuel)
    obtain ⟨hy, hys⟩ := List.forall_mem_cons.mp hxs
    have hrest := ih hy hys (Nat.lt_of_succ_lt_succ hfuel)
    have htext : joinText ((x :: y :: ys).map Numeral.text) ++ r =
        x.text ++ ',' :: ' ' :: (joinText ((y :: ys).map Numeral.text) ++ r) := by simp [joinText]
    rw [htext, readList, skipBlanks_text hx, readNumber_text hx (endsNumber_comma _)]
    show (readList n (' ' :: _)).map _ = _
    rw [readList_space, hrest]
    rfl

/-- The text of a list has at least one character for each number, so the fuel suffices. -/
theorem length_le_length_joinText (ts : List (List Char)) : ts.length ≤ (joinText ts).length := by
  induction ts with
  | nil => exact Nat.zero_le _
  | cons t ts ih =>
    cases ts with
    | nil => simp [joinText]
    | cons u us =>
      simp only [joinText, List.length_append, List.length_cons, List.length_nil] at ih ⊢
      omega

theorem readSequence_bracket {cs ds : List Char} {d : Char} (h : skipBlanks cs = d :: ds) (hd : d ≠ ']') :
    readSequence (' ' :: '[' :: cs) = readList cs.length (d :: ds) := by
  have hopen : skipBlanks (' ' :: '[' :: cs) = '[' :: cs := rfl
  have hstring : '[' ≠ stringChar := by decide
  simp [readSequence, hopen, hstring, h, hd]

/-- A list in brackets is read with its numbers' values (rule R37). -/
theorem readSequence_listText {xs : List Numeral} (hxs : ∀ x ∈ xs, x.legal = true) (r : List Char) :
    readSequence (' ' :: (listText (xs.map Numeral.text) ++ r)) = some (xs.map Numeral.value, r) := by
  cases xs with
  | nil => rfl
  | cons x xs =>
    obtain ⟨hx, hxs⟩ := List.forall_mem_cons.mp hxs
    obtain ⟨c, cs, htext, hblank, hbracket⟩ := text_eq_cons hx
    obtain ⟨t, hjoin⟩ : ∃ t, joinText ((x :: xs).map Numeral.text) ++ r = c :: t := by
      cases xs <;> simp [joinText, htext]
    have hfuel : xs.length < (c :: t).length := by
      have := length_le_length_joinText ((x :: xs).map Numeral.text)
      rw [← hjoin, List.length_append]
      simp only [List.length_map, List.length_cons] at this
      omega
    have hlist := readList_joinText hx hxs hfuel r
    rw [hjoin] at hlist
    rw [listText, List.cons_append, hjoin, readSequence_bracket (skipBlanks_cons hblank t) hbracket, hlist]

/-- A string is read up to its closing quote, with its characters' numbers (rule R37). -/
theorem readString_append {cs : List Char} (hprint : ∀ c ∈ cs, isPrintable c = true) (hquote : stringChar ∉ cs)
    (r : List Char) : readString (cs ++ stringChar :: r) = some (cs.map Char.toNat, r) := by
  induction cs with
  | nil => rfl
  | cons c cs ih =>
    obtain ⟨hc, hcs⟩ := List.forall_mem_cons.mp hprint
    obtain ⟨hne, hquote⟩ := not_or.mp (mt List.mem_cons.mpr hquote)
    rw [List.cons_append, readString, beq_false_of_ne (Ne.symm hne), if_neg Bool.false_ne_true, if_pos hc,
      ih hcs hquote]
    rfl

theorem readSequence_quotedText {cs : List Char} (hprint : ∀ c ∈ cs, isPrintable c = true) (hquote : stringChar ∉ cs)
    (r : List Char) : readSequence (' ' :: (quotedText cs ++ r)) = some (cs.map Char.toNat, r) := by
  have htext : quotedText cs ++ r = stringChar :: (cs ++ stringChar :: r) := by simp [quotedText]
  rw [htext, ← readString_append hprint hquote r]
  rfl

/-- The seed is taken exactly if it is in range, and it is 0 where it is omitted (rule R37). -/
theorem readSeed_seedText {k : Option Numeral} (hk : k.all Numeral.legal = true) :
    readSeed (seedText k) = if seedValue k < 2 ^ 64 then some (seedValue k) else none := by
  cases k with
  | none => rfl
  | some k => exact readOperand_text hk 64

/-- A sequence and a seed are taken exactly if every unit and the seed are in range (rules R36, R37). -/
theorem readHash_of_readSequence {t : List Char} {vs : List Nat} {k : Option Numeral} (hk : k.all Numeral.legal = true)
    (h : readSequence t = some (vs, seedText k)) (bits : Nat) :
    readHash bits t =
      if (∀ v ∈ vs, v < 2 ^ bits) ∧ seedValue k < 2 ^ 64 then some (vs, seedValue k) else none := by
  simp only [readHash, h, readSeed_seedText hk, List.all_eq_true, decide_eq_true_iff]
  by_cases hseed : seedValue k < 2 ^ 64
  · simp only [hseed, if_true, and_true]
  · simp only [hseed, if_false, and_false]

/-! ## Lines -/

theorem asmLine_init (w : WideBits) (t : List Char) :
    asmLine w (['I', 'N', 'I', 'T', ' '] ++ t) =
      (readOperand 64 (' ' :: t)).map (fun v => [.init (BitVec.ofNat 64 v)]) := rfl

theorem asmLine_upd8 (w : WideBits) (t : List Char) :
    asmLine w (['U', 'P', 'D', '8', ' '] ++ t) =
      (readOperand 8 (' ' :: t)).map (fun v => [.upd8 (BitVec.ofNat 8 v)]) := rfl

theorem asmLine_updw (w : WideBits) (t : List Char) :
    asmLine w (['U', 'P', 'D', 'W', ' '] ++ t) =
      (readOperand w.bits (' ' :: t)).map (fun v => [.updw (BitVec.ofNat 32 v)]) := rfl

theorem asmLine_fin (w : WideBits) : asmLine w ['F', 'I', 'N'] = some [.fin] := rfl

theorem asmLine_hash8 (w : WideBits) (t : List Char) :
    asmLine w (['H', 'A', 'S', 'H', '8', ' '] ++ t) =
      (readHash 8 (' ' :: t)).map (fun p => hash8Commands (p.1.map (BitVec.ofNat 8)) (BitVec.ofNat 64 p.2)) := rfl

theorem asmLine_hashWide (w : WideBits) (t : List Char) :
    asmLine w (['H', 'A', 'S', 'H', 'W', 'I', 'D', 'E', ' '] ++ t) =
      (readHash w.bits (' ' :: t)).map
        (fun p => hashWideCommands w (p.1.map (BitVec.ofNat w.bits)) (BitVec.ofNat 64 p.2)) := rfl

/-- A line of HASH8 with a sequence that is read and a seed or none (rule R37). -/
theorem asmLine_hash8_of_readSequence (w : WideBits) {t : List Char} {vs : List Nat} {k : Option Numeral}
    (hk : k.all Numeral.legal = true) (h : readSequence (' ' :: (t ++ seedText k)) = some (vs, seedText k)) :
    asmLine w (['H', 'A', 'S', 'H', '8', ' '] ++ t ++ seedText k) =
      if (∀ v ∈ vs, v < 2 ^ 8) ∧ seedValue k < 2 ^ 64 then
        some (hash8Commands (vs.map (BitVec.ofNat 8)) (BitVec.ofNat 64 (seedValue k))) else none := by
  rw [List.append_assoc, asmLine_hash8, readHash_of_readSequence hk h, apply_ite (Option.map _)]
  rfl

/-- A line of HASHWIDE with a sequence that is read and a seed or none (rule R37). -/
theorem asmLine_hashWide_of_readSequence (w : WideBits) {t : List Char} {vs : List Nat} {k : Option Numeral}
    (hk : k.all Numeral.legal = true) (h : readSequence (' ' :: (t ++ seedText k)) = some (vs, seedText k)) :
    asmLine w (['H', 'A', 'S', 'H', 'W', 'I', 'D', 'E', ' '] ++ t ++ seedText k) =
      if (∀ v ∈ vs, v < 2 ^ w.bits) ∧ seedValue k < 2 ^ 64 then
        some (hashWideCommands w (vs.map (BitVec.ofNat w.bits)) (BitVec.ofNat 64 (seedValue k))) else none := by
  rw [List.append_assoc, asmLine_hashWide, readHash_of_readSequence hk h, apply_ite (Option.map _)]
  rfl

/-- A line of a command with a legal number (rule R36). -/
theorem asmLine_init_text (w : WideBits) {x : Numeral} (hx : x.legal = true) :
    asmLine w (['I', 'N', 'I', 'T', ' '] ++ x.text) =
      if x.value < 2 ^ 64 then some [.init (BitVec.ofNat 64 x.value)] else none := by
  rw [asmLine_init, readOperand_text hx, apply_ite (Option.map _)]
  rfl

theorem asmLine_upd8_text (w : WideBits) {x : Numeral} (hx : x.legal = true) :
    asmLine w (['U', 'P', 'D', '8', ' '] ++ x.text) =
      if x.value < 2 ^ 8 then some [.upd8 (BitVec.ofNat 8 x.value)] else none := by
  rw [asmLine_upd8, readOperand_text hx, apply_ite (Option.map _)]
  rfl

theorem asmLine_updw_text (w : WideBits) {x : Numeral} (hx : x.legal = true) :
    asmLine w (['U', 'P', 'D', 'W', ' '] ++ x.text) =
      if x.value < 2 ^ w.bits then some [.updw (BitVec.ofNat 32 x.value)] else none := by
  rw [asmLine_updw, readOperand_text hx, apply_ite (Option.map _)]
  rfl

theorem asmLine_hash8_list (w : WideBits) {xs : List Numeral} {k : Option Numeral} (hxs : xs.all Numeral.legal = true)
    (hk : k.all Numeral.legal = true) :
    asmLine w (['H', 'A', 'S', 'H', '8', ' '] ++ listText (xs.map Numeral.text) ++ seedText k) =
      if (∀ x ∈ xs, x.value < 2 ^ 8) ∧ seedValue k < 2 ^ 64 then
        some (hash8Commands (xs.map (fun x => BitVec.ofNat 8 x.value)) (BitVec.ofNat 64 (seedValue k))) else none := by
  rw [asmLine_hash8_of_readSequence w hk (readSequence_listText (List.all_eq_true.mp hxs) _), List.map_map]
  simp only [List.forall_mem_map, Function.comp_def]

theorem asmLine_hashWide_list (w : WideBits) {xs : List Numeral} {k : Option Numeral}
    (hxs : xs.all Numeral.legal = true) (hk : k.all Numeral.legal = true) :
    asmLine w (['H', 'A', 'S', 'H', 'W', 'I', 'D', 'E', ' '] ++ listText (xs.map Numeral.text) ++ seedText k) =
      if (∀ x ∈ xs, x.value < 2 ^ w.bits) ∧ seedValue k < 2 ^ 64 then
        some (hashWideCommands w (xs.map (fun x => BitVec.ofNat w.bits x.value)) (BitVec.ofNat 64 (seedValue k)))
      else none := by
  rw [asmLine_hashWide_of_readSequence w hk (readSequence_listText (List.all_eq_true.mp hxs) _), List.map_map]
  simp only [List.forall_mem_map, Function.comp_def]

/-! ## The disassembly's numbers -/

theorem hexDigit_hexChar : ∀ d < 16, hexDigit (hexChar d) = some d := by decide

/-- The number that the disassembly prints with `n` hexadecimal digits. -/
def hexNumeral (n v : Nat) : Numeral := .hex (hexDigits n v)

@[simp] theorem text_hexNumeral (n v : Nat) : (hexNumeral n v).text = hexText n v := rfl

theorem isSome_hexDigit_of_mem_hexDigits {n v : Nat} : ∀ c ∈ hexDigits n v, (hexDigit c).isSome = true := by
  induction n generalizing v with
  | zero => simp [hexDigits]
  | succ n ih =>
    intro c hc
    rcases List.mem_append.mp hc with hc | hc
    · exact ih c hc
    · rw [List.mem_singleton.mp hc, hexDigit_hexChar _ (Nat.mod_lt _ (by decide))]
      rfl

theorem legal_hexNumeral {n : Nat} (hn : 0 < n) (v : Nat) : (hexNumeral n v).legal = true := by
  obtain ⟨m, rfl⟩ := Nat.exists_eq_add_one_of_ne_zero (Nat.ne_of_gt hn)
  have hne : (hexDigits (m + 1) v).isEmpty = false := by simp [hexDigits]
  rw [hexNumeral, Numeral.legal, hne, List.all_eq_true.mpr isSome_hexDigit_of_mem_hexDigits]
  rfl

/-- Read back, `n` printed digits are the number modulo `16 ^ n`. -/
theorem value_hexNumeral_mod (n v : Nat) : (hexNumeral n v).value = v % 16 ^ n := by
  induction n generalizing v with
  | zero => exact (Nat.mod_one v).symm
  | succ n ih =>
    have hdigit := hexDigit_hexChar (v % 16) (Nat.mod_lt v (by decide))
    have hhigh : (hexDigits n (v / 16)).foldl (fun a c => a * 16 + (hexDigit c).getD 0) 0 = v / 16 % 16 ^ n :=
      ih (v / 16)
    rw [hexNumeral, Numeral.value, hexDigits, List.foldl_append, hhigh, pow_succ', Nat.mod_mul]
    simp only [List.foldl_cons, List.foldl_nil, hdigit, Option.getD_some]
    omega

/-- A number that fits its digits is printed whole. -/
theorem value_hexNumeral {n v : Nat} (hv : v < 16 ^ n) : (hexNumeral n v).value = v := by
  rw [value_hexNumeral_mod, Nat.mod_eq_of_lt hv]

/-- A unit or a seed is printed with a quarter as many digits as it has bits. -/
theorem value_hexNumeral_toNat {b n : Nat} (hb : b = 4 * n) (u : BitVec b) :
    (hexNumeral n u.toNat).value = u.toNat := by
  apply value_hexNumeral
  have hpow : 16 ^ n = 2 ^ b := by rw [hb, pow_mul]; rfl
  rw [hpow]
  exact u.isLt

theorem bits_eq_four_mul (w : WideBits) : w.bits = 4 * (w.bits / 4) := by
  cases w <;> decide

/-- Lists of numbers as the disassembly prints them. -/
def hexNumerals {b : Nat} (n : Nat) (s : List (BitVec b)) : List Numeral := s.map (fun u => hexNumeral n u.toNat)

theorem map_text_hexNumerals {b : Nat} (n : Nat) (s : List (BitVec b)) :
    (hexNumerals n s).map Numeral.text = s.map (fun u => hexText n u.toNat) := by
  rw [hexNumerals, List.map_map]
  rfl

theorem all_legal_hexNumerals {b n : Nat} (hn : 0 < n) (s : List (BitVec b)) :
    (hexNumerals n s).all Numeral.legal = true := by
  simp [hexNumerals, legal_hexNumeral hn]

theorem value_lt_of_mem_hexNumerals {b n : Nat} (hb : b = 4 * n) {s : List (BitVec b)} :
    ∀ x ∈ hexNumerals n s, x.value < 2 ^ b := by
  intro x hx
  obtain ⟨u, -, rfl⟩ := List.mem_map.mp hx
  rw [value_hexNumeral_toNat hb]
  exact u.isLt

theorem map_ofNat_value_hexNumerals {b n : Nat} (hb : b = 4 * n) (s : List (BitVec b)) :
    (hexNumerals n s).map (fun x => BitVec.ofNat b x.value) = s := by
  simp [hexNumerals, Function.comp_def, value_hexNumeral_toNat hb]

/-! ## Texts that assemble to what they were printed from -/

/-- The seed as the disassembly prints it. -/
def hexSeed (k : DWord) : Option Numeral := some (hexNumeral 16 k.toNat)

theorem all_legal_hexSeed (k : DWord) : (hexSeed k).all Numeral.legal = true := by
  rw [hexSeed, Option.all_some, legal_hexNumeral (by decide)]

theorem seedText_hexSeed (k : DWord) : seedText (hexSeed k) = [',', ' '] ++ hexText 16 k.toNat := by
  rw [hexSeed, seedText, text_hexNumeral]

theorem seedValue_hexSeed (k : DWord) : seedValue (hexSeed k) = k.toNat := value_hexNumeral_toNat (n := 16) rfl k

theorem asmLine_hash8Text (w : WideBits) (s : List Byte) (k : DWord) :
    asmLine w (hash8Text s k) = some (hash8Commands s k) := by
  have hunits := value_lt_of_mem_hexNumerals (n := 2) rfl (s := s)
  rw [hash8Text, List.append_assoc _ [',', ' '], ← map_text_hexNumerals, ← seedText_hexSeed,
    asmLine_hash8_list w (all_legal_hexNumerals (by decide) s) (all_legal_hexSeed k), seedValue_hexSeed,
    if_pos ⟨hunits, k.isLt⟩, map_ofNat_value_hexNumerals (n := 2) rfl, BitVec.ofNat_toNat, BitVec.setWidth_eq]

theorem asmLine_hashWideText (w : WideBits) (s : List (BitVec w.bits)) (k : DWord) :
    asmLine w (hashWideText w s k) = some (hashWideCommands w s k) := by
  have hdigits : 0 < w.bits / 4 := Nat.div_pos (le_trans (by decide) w.sixteen_le_bits) (by decide)
  have hunits := value_lt_of_mem_hexNumerals (bits_eq_four_mul w) (s := s)
  rw [hashWideText, List.append_assoc _ [',', ' '], ← map_text_hexNumerals, ← seedText_hexSeed,
    asmLine_hashWide_list w (all_legal_hexNumerals hdigits s) (all_legal_hexSeed k), seedValue_hexSeed,
    if_pos ⟨hunits, k.isLt⟩, map_ofNat_value_hexNumerals (bits_eq_four_mul w), BitVec.ofNat_toNat, BitVec.setWidth_eq]

/-- The text of a command that can be sent as written assembles to it (rule R36). -/
theorem asmLine_disasm {w : WideBits} {i : Instr} (hi : i.wellFormed w = true) : asmLine w (disasm i) = some [i] := by
  cases i with
  | init seed =>
    rw [disasm, ← text_hexNumeral, asmLine_init_text w (legal_hexNumeral (by decide) _), value_hexNumeral_toNat rfl,
      if_pos seed.isLt, BitVec.ofNat_toNat, BitVec.setWidth_eq]
  | upd8 u =>
    rw [disasm, ← text_hexNumeral, asmLine_upd8_text w (legal_hexNumeral (by decide) _), value_hexNumeral_toNat rfl,
      if_pos u.isLt, BitVec.ofNat_toNat, BitVec.setWidth_eq]
  | updw u =>
    rw [disasm, ← text_hexNumeral, asmLine_updw_text w (legal_hexNumeral (by decide) _), value_hexNumeral_toNat rfl,
      if_pos (of_decide_eq_true hi), BitVec.ofNat_toNat, BitVec.setWidth_eq]
  | fin => exact asmLine_fin w

/-- A listing of one line is the words of its commands (rule R36). -/
theorem asmProgram_singleton {w : WideBits} {t : List Char} {cs : List Instr} (h : asmLine w t = some cs) :
    asmProgram w [t] = some (cs.map encode) := by
  simp [asmProgram, h]

/-- A printable character fits every unit (rules R36, R37). -/
theorem toNat_lt_of_isPrintable {c : Char} (hc : isPrintable c = true) {b : Nat} (hb : 8 ≤ b) : c.toNat < 2 ^ b := by
  obtain ⟨-, hle⟩ : 32 ≤ c.toNat ∧ c.toNat ≤ 126 := by simpa [isPrintable] using hc
  calc c.toNat
    _ < 2 ^ 8 := by omega
    _ ≤ 2 ^ b := Nat.pow_le_pow_right (by decide) hb

theorem forall_mem_map_toNat_lt {cs : List Char} (hprint : cs.all isPrintable = true) {b : Nat} (hb : 8 ≤ b) :
    ∀ v ∈ cs.map Char.toNat, v < 2 ^ b :=
  List.forall_mem_map.mpr fun c hc => toNat_lt_of_isPrintable (List.all_eq_true.mp hprint c hc) hb

theorem asmLine_hash8_string (w : WideBits) {cs : List Char} {k : Option Numeral} (hprint : cs.all isPrintable = true)
    (hquote : stringChar ∉ cs) (hk : k.all Numeral.legal = true) :
    asmLine w (['H', 'A', 'S', 'H', '8', ' '] ++ quotedText cs ++ seedText k) =
      if seedValue k < 2 ^ 64 then
        some (hash8Commands (cs.map (fun c => BitVec.ofNat 8 c.toNat)) (BitVec.ofNat 64 (seedValue k))) else none := by
  have hunits := forall_mem_map_toNat_lt hprint (b := 8) le_rfl
  rw [asmLine_hash8_of_readSequence w hk (readSequence_quotedText (List.all_eq_true.mp hprint) hquote _), List.map_map]
  simp only [and_iff_right hunits, Function.comp_def]

theorem asmLine_hashWide_string (w : WideBits) {cs : List Char} {k : Option Numeral}
    (hprint : cs.all isPrintable = true) (hquote : stringChar ∉ cs) (hk : k.all Numeral.legal = true) :
    asmLine w (['H', 'A', 'S', 'H', 'W', 'I', 'D', 'E', ' '] ++ quotedText cs ++ seedText k) =
      if seedValue k < 2 ^ 64 then
        some (hashWideCommands w (cs.map (fun c => BitVec.ofNat w.bits c.toNat)) (BitVec.ofNat 64 (seedValue k)))
      else none := by
  have hunits := forall_mem_map_toNat_lt hprint (le_trans (by decide) w.sixteen_le_bits)
  rw [asmLine_hashWide_of_readSequence w hk (readSequence_quotedText (List.all_eq_true.mp hprint) hquote _),
    List.map_map]
  simp only [and_iff_right hunits, Function.comp_def]

end Sys2Proof.Machine
end

section
/-! SETTLED: the statements of 30_encoding.md on the textual form. -/

namespace Sys2Proof.Proofs
open Sys2Proof Sys2Proof.Machine

/-- Settles O45: the disassembly prints the operand whole, and the reader takes a number in range with its value. -/
theorem assemblerRoundTrip : Obligations.AssemblerRoundTrip := by
  intro w i hi
  have hline := asmLine_disasm hi
  refine ⟨hline, asmProgram_singleton hline, ?_⟩
  rw [disasmWord, decode_encode hi]

/-- Settles O46: a number is read whole in each of its forms and then compared with the range; the two lines of a list
are those with the seed given. -/
theorem assemblerRefusesOutOfRange : Obligations.AssemblerRefusesOutOfRange := by
  refine ⟨fun w x hx => ⟨asmLine_init_text w hx, asmLine_upd8_text w hx, asmLine_updw_text w hx⟩,
    fun w xs k hxs hk => ?_⟩
  rw [List.append_assoc _ [',', ' '], List.append_assoc _ [',', ' ']]
  exact ⟨asmLine_hash8_list w (k := some k) hxs hk, asmLine_hashWide_list w (k := some k) hxs hk⟩

/-- Settles O47: the reader takes the sequence, a list or a string, and then the seed or its absence; printed numbers
and printable characters are in range. -/
theorem pseudoInstructionsExpand : Obligations.PseudoInstructionsExpand := by
  refine ⟨fun l k => ⟨rfl, ?_⟩, fun w l k => ⟨rfl, ?_⟩, asmLine_hash8Text, asmLine_hashWideText,
    fun w xs k hxs hk => ⟨asmLine_hash8_list w hxs hk, asmLine_hashWide_list w hxs hk⟩,
    fun w cs k hprint hquote hk => ?_⟩
  · simp [hash8Commands, transaction]
  · simp [hashWideCommands, transaction]
  · exact ⟨asmLine_hash8_string w hprint hquote hk, asmLine_hashWide_string w hprint hquote hk⟩

end Sys2Proof.Proofs
end
